-- ==== Sys2Proof/Word.lean ====
section
/-! DEFINITION. The machine's word types: bytes, 32-bit state words, 64-bit commands and counters (spec/00_scope.md R8, R10, R16). -/

namespace Sys2Proof

/-- An 8-bit byte (R16). -/
abbrev Byte := BitVec 8

/-- A 32-bit word; `+` on it wraps mod 2^32 (R8 WORD, R11). -/
abbrev Word := BitVec 32

/-- A 64-bit command word or counter value; `+` on it wraps mod 2^64 (R8 CMD and CNT, R11). -/
abbrev Word64 := BitVec 64

end Sys2Proof
end

