-- ==== Sys2Proof/Config.lean ====
section
/-! DEFINITION. What is fixed for the machine: the fixed parameters of spec/00_scope.md R8 that the definitions use, and the open parameters of R9 as constants without a value. -/

namespace Sys2Proof.Config

/-- R8 BLOCK: the staging buffer and every block hold 64 bytes. -/
abbrev blockBytes : Nat := 64

/-- R8 DIGEST_BYTES_B: the digest latch DG holds the longer digest, 20 bytes. -/
abbrev latchBytes : Nat := 20

/-- R8 STEPS_A. -/
abbrev stepsA : Nat := 64

/-- R8 STEPS_B. -/
abbrev stepsB : Nat := 80

/-- R8 HEX_A: the length in characters of an A digest. -/
abbrev hexLenA : BitVec 6 := 32

/-- R8 HEX_B: the length in characters of a B digest. -/
abbrev hexLenB : BitVec 6 := 40

/-- R9 LATENCY(cmd), an OPEN parameter: no definition of the model reads it, since no response depends on time (R446; log 11). -/
opaque latency : Word64 → Nat

/-- R9 ROUNDS_PER_CYCLE, an OPEN parameter: unobservable, read by no definition (R446; log 11). -/
opaque roundsPerCycle : Nat

/-- R9 N_INSTANCES, an OPEN parameter: how many independent cores a platform holds (R396; log 11). -/
opaque nInstances : Nat

end Sys2Proof.Config
end

