-- ==== Sys2Proof/Syntax.lean ====
section
/-! DEFINITION. The commands of the core, one constructor per row of spec/opcode_table.json (spec/30_encoding.md R115), and their mnemonics. -/

namespace Sys2Proof

/-- The 14 mnemonics of the opcode map (R115). -/
inductive Mnemonic where
  | nop | startA | startB | wipe | rdstat | rdcntl | rdcnth
  | feed1 | feed2 | feed3 | feed4 | finish | rdhex | rdraw
deriving DecidableEq, Repr

/-- A decoded command. FEED operands are the bytes in input order, B0 first (R113, R118);
an RDHEX or RDRAW operand is the group index IDX (R114). -/
inductive Instr where
  /-- NOP (R350) -/
  | nop
  /-- START_A (R351) -/
  | startA
  /-- START_B (R352) -/
  | startB
  /-- WIPE (R353) -/
  | wipe
  /-- RDSTAT (R354) -/
  | rdstat
  /-- RDCNTL (R355) -/
  | rdcntl
  /-- RDCNTH (R356) -/
  | rdcnth
  /-- FEED1 (R153) -/
  | feed1 (b0 : Byte)
  /-- FEED2 (R154) -/
  | feed2 (b0 b1 : Byte)
  /-- FEED3 (R155) -/
  | feed3 (b0 b1 b2 : Byte)
  /-- FEED4 (R156) -/
  | feed4 (b0 b1 b2 b3 : Byte)
  /-- FINISH (R311) -/
  | finish
  /-- RDHEX j (R313) -/
  | rdhex (idx : Nat)
  /-- RDRAW j (R314) -/
  | rdraw (idx : Nat)
deriving DecidableEq, Repr

end Sys2Proof
end

