-- ==== Sys2Proof/WellFormed.lean ====
section
/-! DEFINITION. Which commands have an encoding: the group index fits its 4-bit field (spec/30_encoding.md R114); every byte operand is legal (R113). -/

namespace Sys2Proof

/-- A command that some word encodes: IDX is "unsigned 0..15" (R114). "Every byte value 0x00 to 0xFF
is legal in an operand byte" (R113), so no byte operand is checked. -/
def Instr.wf : Instr → Bool
  | .nop => true
  | .startA => true
  | .startB => true
  | .wipe => true
  | .rdstat => true
  | .rdcntl => true
  | .rdcnth => true
  | .feed1 _ => true
  | .feed2 _ _ => true
  | .feed3 _ _ _ => true
  | .feed4 _ _ _ _ => true
  | .finish => true
  | .rdhex idx => decide (idx < 16)
  | .rdraw idx => decide (idx < 16)

end Sys2Proof
end

