-- ==== Sys2Proof/Decode.lean ====
section
/-! DEFINITION. The opcode map, the total decoder and the encoder (spec/30_encoding.md R110 to R117). -/

namespace Sys2Proof

/-- One row of the opcode map of R115: a word spells the row's command exactly when
`(cmd & mask) == pattern`; `read` takes the operand fields of R113 and R114 out of such a word. -/
structure Row where
  mnemonic : Mnemonic
  pattern  : Word64
  mask     : Word64
  read     : Word64 → Instr

/-- Operand byte k of a command, `DATA[8k+7 : 8k]` (R113; R83: B0 is `DATA[7:0]`). -/
def operandByte (cmd : Word64) (k : Nat) : Byte := cmd.extractLsb' (8 * k) 8

/-- The group index `IDX = cmd[3:0]`, zero-extended (R114). -/
def operandIndex (cmd : Word64) : Nat := (cmd.extractLsb' 0 4).toNat

/-- The opcode map of R115, in its order. -/
def opcodeMap : List Row :=
  [ ⟨.nop,    0x0000000000000000, 0xFFFFFFFFFFFFFFFF, fun _ => .nop⟩,
    ⟨.startA, 0x0100000000000000, 0xFFFFFFFFFFFFFFFF, fun _ => .startA⟩,
    ⟨.startB, 0x0200000000000000, 0xFFFFFFFFFFFFFFFF, fun _ => .startB⟩,
    ⟨.wipe,   0x0300000000000000, 0xFFFFFFFFFFFFFFFF, fun _ => .wipe⟩,
    ⟨.rdstat, 0x0400000000000000, 0xFFFFFFFFFFFFFFFF, fun _ => .rdstat⟩,
    ⟨.rdcntl, 0x0500000000000000, 0xFFFFFFFFFFFFFFFF, fun _ => .rdcntl⟩,
    ⟨.rdcnth, 0x0600000000000000, 0xFFFFFFFFFFFFFFFF, fun _ => .rdcnth⟩ ] ++
  [ ⟨.feed1,  0x1000000000000000, 0xFFFFFFFFFFFFFF00, fun w => .feed1 (operandByte w 0)⟩,
    ⟨.feed2,  0x1100000000000000, 0xFFFFFFFFFFFF0000, fun w => .feed2 (operandByte w 0) (operandByte w 1)⟩,
    ⟨.feed3,  0x1200000000000000, 0xFFFFFFFFFF000000,
      fun w => .feed3 (operandByte w 0) (operandByte w 1) (operandByte w 2)⟩,
    ⟨.feed4,  0x1300000000000000, 0xFFFFFFFF00000000,
      fun w => .feed4 (operandByte w 0) (operandByte w 1) (operandByte w 2) (operandByte w 3)⟩,
    ⟨.finish, 0x2000000000000000, 0xFFFFFFFFFFFFFFFF, fun _ => .finish⟩,
    ⟨.rdhex,  0x3000000000000000, 0xFFFFFFFFFFFFFFF0, fun w => .rdhex (operandIndex w)⟩,
    ⟨.rdraw,  0x3100000000000000, 0xFFFFFFFFFFFFFFF0, fun w => .rdraw (operandIndex w)⟩ ]

/-- R115: the word spells the row's command. -/
def Row.spells (r : Row) (cmd : Word64) : Bool := (cmd &&& r.mask) == r.pattern

/-- `Decode(cmd)` of R117, total on all words; `none` is ILLEGAL (R116). It reads nothing but the word. -/
def decode (cmd : Word64) : Option Instr :=
  (opcodeMap.find? fun r => r.spells cmd).map fun r => r.read cmd

/-- The three fields of R110 put together: OPC, MBZ = 0, DATA. -/
def commandWord (opc : BitVec 8) (data : BitVec 32) : Word64 := opc ++ (0 : BitVec 24) ++ data

/-- The word of a well-formed command, from the formats N, F and R (R112, R113, R114).
An index above 15 has no word; its low four bits are taken (log 17). -/
def encode : Instr → Word64
  | .nop => commandWord 0x00 0
  | .startA => commandWord 0x01 0
  | .startB => commandWord 0x02 0
  | .wipe => commandWord 0x03 0
  | .rdstat => commandWord 0x04 0
  | .rdcntl => commandWord 0x05 0
  | .rdcnth => commandWord 0x06 0
  | .feed1 b0 => commandWord 0x10 ((0 : BitVec 24) ++ b0)
  | .feed2 b0 b1 => commandWord 0x11 ((0 : BitVec 16) ++ b1 ++ b0)
  | .feed3 b0 b1 b2 => commandWord 0x12 ((0 : BitVec 8) ++ b2 ++ b1 ++ b0)
  | .feed4 b0 b1 b2 b3 => commandWord 0x13 (b3 ++ b2 ++ b1 ++ b0)
  | .finish => commandWord 0x20 0
  | .rdhex idx => commandWord 0x30 ((0 : BitVec 28) ++ BitVec.ofNat 4 idx)
  | .rdraw idx => commandWord 0x31 ((0 : BitVec 28) ++ BitVec.ofNat 4 idx)

/-- The mnemonic of a command. -/
def Instr.mnemonic : Instr → Mnemonic
  | .nop => .nop
  | .startA => .startA
  | .startB => .startB
  | .wipe => .wipe
  | .rdstat => .rdstat
  | .rdcntl => .rdcntl
  | .rdcnth => .rdcnth
  | .feed1 _ => .feed1
  | .feed2 _ _ => .feed2
  | .feed3 _ _ _ => .feed3
  | .feed4 _ _ _ _ => .feed4
  | .finish => .finish
  | .rdhex _ => .rdhex
  | .rdraw _ => .rdraw

/-- The command word whose low `nbits` bits are `w` and whose other bits are 0 (log 18). -/
def tableWord (nbits w : Nat) : Word64 := (BitVec.ofNat nbits w).setWidth 64

/-- What the decoder reads from a word numbered as spec/opcode_table.json numbers it. -/
def decodeTableWord (nbits w : Nat) : Option Instr := decode (tableWord nbits w)

end Sys2Proof
end

