-- ==== Sys2Proof/Machine/State.lean ====
section
/-! DEFINITION. The state of the core and of its command port (spec/10_state.md), the reasons a step can stop, and the state after reset (R54). -/

namespace Sys2Proof.Machine

/-- The state words H[0..4], one named register each (10_state.md R43; R50 asks for "an explicit
small fixed-size array of named registers"). Under A, H[4] is held at 0. -/
structure StateWords where
  h0 : Word
  h1 : Word
  h2 : Word
  h3 : Word
  h4 : Word
deriving DecidableEq, Repr

/-- The staging buffer BUF as the bytes that differ from 0, by rising offset: the canonical form
`Memory.wf` of Machine/Ops.lean. An unlisted offset reads as 0, the byte reset and every wipe leave
(10_state.md R44, R54; log 7). -/
abbrev Memory := List Host.Cell

/-- The architectural state of one core instance, "exactly the following" registers (10_state.md R40). -/
structure CoreState where
  /-- PHASE: 0 IDLE, 1 ABSORB, 2 DONE; 3 is never written (R41). -/
  phase : BitVec 2
  /-- ALG: 0 = A, 1 = B (R42). -/
  alg : BitVec 1
  /-- H[0..4] (R43). -/
  h : StateWords
  /-- BUF[0..63] (R44). -/
  buf : Memory
  /-- TOTAL: bytes fed, mod 2^64 (R45). -/
  total : BitVec 64
  /-- DG[0..19]: the digest latch (R47). -/
  dg : Vector Byte 20
  /-- DLEN: hex length of the latched digest, 0, 32 or 40 (R47). -/
  dlen : BitVec 6
  /-- ERR: the sticky first error code (R48). -/
  err : BitVec 8
deriving DecidableEq, Repr

/-- What a command returns: STATUS[7:0] and RDATA[31:0] (30_encoding.md R111). -/
structure Response where
  status : BitVec 8
  data : Word
deriving DecidableEq, Repr

/-- What the host, the only other agent, can do to the core (70_reset_and_hazards.md R440). -/
inductive HostAction where
  /-- Issue a command after the response to the previous one has arrived (R94, R441). -/
  | command (w : Word64)
  /-- Issue a command before that response: "overlapping commands are refused" (R441, ID10). -/
  | overlapped (w : Word64)
  /-- Assert reset between commands (R430, R431). -/
  | reset
  /-- Assert reset while the command w executes: a claim "cannot rely on such a command" (R431, ID9). -/
  | resetDuring (w : Word64)
deriving DecidableEq, Repr

/-- The machine: the core, and at its port the host's actions still to come and the responses
already delivered. -/
structure State where
  /-- The architectural registers (R40). -/
  core : CoreState
  /-- The host's actions still to come, next first: "the core's program is the host's sequence of
  commands" (R51). The model's own field (log 1). -/
  pending : List HostAction
  /-- The responses delivered so far, newest first (R111, R440). The model's own field (log 2). -/
  responses : List Response
  /-- A nonzero STATUS has been returned; never cleared (60_exceptions.md R399). The model's own field (log 3). -/
  faultSeen : Bool
deriving DecidableEq, Repr

/-- Why the machine is stuck. Every one is unreachable from reset; stopping is safe. -/
inductive Fault where
  /-- PHASE = 3: "no command is defined for that state" (ID8). Raised by every command and by an
  illegal word. Safe (log 6). -/
  | phaseUndefined
  /-- MemRead or MemWrite outside its precondition (20_memory.md R80, ID11). Raised by FEED and
  FINISH only through a call no rule makes. Safe (log 7). -/
  | bufferRange
  /-- A digest longer than the latch DG[0..19]. Raised by RDHEX and RDRAW when DLEN > 41, which no
  rule writes. Safe (log 8). -/
  | latchRange
deriving DecidableEq, Repr

/-- Why the machine gives an action no meaning. Refusing is safe. -/
inductive Refusal where
  /-- An instruction without a meaning yet, by its mnemonic; raised by exec only. Safe. -/
  | notModelled (mnemonic : String)
  /-- The host has issued nothing: "the core never steps on its own" (R440). Raised by step. Safe (log 4). -/
  | noCommand
  /-- A command issued before the previous response (R441, ID10). Raised by step. Safe (log 5). -/
  | overlappingCommand
  /-- Reset asserted during a command (R431, ID9). Raised by step. Safe (log 5). -/
  | resetDuringCommand
  /-- A platform has no instance of that number (R396). Raised by Platform.step only. Safe. -/
  | noInstance
deriving DecidableEq, Repr

/-- All state words zero. -/
def StateWords.zero : StateWords := ⟨0, 0, 0, 0, 0⟩

/-- The architectural reset values of R54: IDLE, and every register 0. -/
def CoreState.reset : CoreState :=
  { phase := 0, alg := 0, h := StateWords.zero, buf := [], total := 0,
    dg := Vector.replicate 20 0, dlen := 0, err := 0 }

/-- The machine right after reset (R54, R430): the core at its reset values, no action pending,
no response delivered, no fault recorded (logs 1, 2, 3). -/
def State.reset : State :=
  { core := CoreState.reset, pending := [], responses := [], faultSeen := false }

end Sys2Proof.Machine
end

