-- ==== Sys2Proof/Machine/Operands.lean ====
section
/-! DEFINITION. Operand forms and conversions: rotation, byte order, word selection, hex digits (spec/00_scope.md R11, R12; spec/20_memory.md R83 to R85; spec/44_finalizer.md R309). -/

namespace Sys2Proof.Machine

/-- `rol(x, n)` for 0 ≤ n ≤ 31 (R11). -/
def rol (x : Word) (n : Nat) : Word := (x <<< n) ||| (x >>> (32 - n))

/-- Byte k of a byte sequence (R12 `s[k]`); every caller stays inside the sequence. -/
def byteAt (s : List Byte) (k : Nat) : Byte := s.getD k 0

/-- `LE32(s, k)` (R12). -/
def le32 (s : List Byte) (k : Nat) : Word :=
  (byteAt s k).setWidth 32 ||| (byteAt s (k + 1)).setWidth 32 <<< 8 |||
    (byteAt s (k + 2)).setWidth 32 <<< 16 ||| (byteAt s (k + 3)).setWidth 32 <<< 24

/-- `BE32(s, k)` (R12). -/
def be32 (s : List Byte) (k : Nat) : Word :=
  (byteAt s k).setWidth 32 <<< 24 ||| (byteAt s (k + 1)).setWidth 32 <<< 16 |||
    (byteAt s (k + 2)).setWidth 32 <<< 8 ||| (byteAt s (k + 3)).setWidth 32

/-- Byte j of a 32-bit word, least significant first: `w[8j+7 : 8j]` (R10, R307). -/
def byteLE (w : Word) (j : Nat) : Byte := w.extractLsb' (8 * j) 8

/-- Byte j of a 32-bit word, most significant first: `w[31-8j : 24-8j]` (R308). -/
def byteBE (w : Word) (j : Nat) : Byte := w.extractLsb' (24 - 8 * j) 8

/-- `LE32bytes(w)`: the 4 bytes of w, least significant first (R12). -/
def le32bytes (w : Word) : List Byte := (List.range 4).map (byteLE w)

/-- `BE32bytes(w)`: the 4 bytes of w, most significant first (R12). -/
def be32bytes (w : Word) : List Byte := (List.range 4).map (byteBE w)

/-- `LE64bytes(v)`: the 8 bytes of v, least significant first (R12). -/
def le64bytes (v : Word64) : List Byte := (List.range 8).map fun j => v.extractLsb' (8 * j) 8

/-- `BE64bytes(v)`: the 8 bytes of v, most significant first (R12). -/
def be64bytes (v : Word64) : List Byte := (List.range 8).map fun j => v.extractLsb' (56 - 8 * j) 8

/-- `H[i]` for i in 0..4 (R13). No caller passes another index. -/
def StateWords.get (h : StateWords) : Nat → Word
  | 0 => h.h0
  | 1 => h.h1
  | 2 => h.h2
  | 3 => h.h3
  | _ => h.h4

/-- `HexDigit(v)`: the lowercase ASCII hexadecimal character of a 4-bit value (R309). -/
def hexDigit (v : BitVec 4) : Byte :=
  if v ≤ 9 then 0x30 + v.setWidth 8 else 0x61 + (v.setWidth 8 - 10)

/-- The two characters of each byte, most significant nibble first (R310). -/
def hexOf (bytes : List Byte) : List Byte :=
  bytes.flatMap fun b => [hexDigit (b.extractLsb' 4 4), hexDigit (b.extractLsb' 0 4)]

end Sys2Proof.Machine
end

