-- ==== Sys2Proof/Machine/CompressA.lean ====
section
/-! DEFINITION. Compression engine A, the 128-bit algorithm (spec/42_compress_a.md R190 to R201). -/

namespace Sys2Proof.Machine

/-- The working registers a, b, c, d; also the four state words as CompressA takes them (R50, R200). -/
structure RegsA where
  a : Word
  b : Word
  c : Word
  d : Word
deriving DecidableEq, Repr

/-- IV_A, the initial constants of H[0..3] (R190). -/
def ivA : RegsA := ⟨0x67452301, 0xefcdab89, 0x98badcfe, 0x10325476⟩

/-- fA0 (R192). -/
def fA0 (x y z : Word) : Word := (x &&& y) ||| (~~~x &&& z)

/-- fA1 (R193). -/
def fA1 (x y z : Word) : Word := (x &&& z) ||| (y &&& ~~~z)

/-- fA2 (R194). -/
def fA2 (x y z : Word) : Word := x ^^^ y ^^^ z

/-- fA3 (R195). -/
def fA3 (x y z : Word) : Word := y ^^^ (x ||| ~~~z)

/-- fA_q, the round function of group q in 0..3 (R191). -/
def roundA (q : Nat) (x y z : Word) : Word :=
  match q with
  | 0 => fA0 x y z
  | 1 => fA1 x y z
  | 2 => fA2 x y z
  | _ => fA3 x y z

/-- The round constants T_A[0..63], as data (R196). -/
def tableTA : List Word :=
  [0xd76aa478, 0xe8c7b756, 0x242070db, 0xc1bdceee, 0xf57c0faf, 0x4787c62a, 0xa8304613, 0xfd469501] ++
  [0x698098d8, 0x8b44f7af, 0xffff5bb1, 0x895cd7be, 0x6b901122, 0xfd987193, 0xa679438e, 0x49b40821] ++
  [0xf61e2562, 0xc040b340, 0x265e5a51, 0xe9b6c7aa, 0xd62f105d, 0x02441453, 0xd8a1e681, 0xe7d3fbc8] ++
  [0x21e1cde6, 0xc33707d6, 0xf4d50d87, 0x455a14ed, 0xa9e3e905, 0xfcefa3f8, 0x676f02d9, 0x8d2a4c8a] ++
  [0xfffa3942, 0x8771f681, 0x6d9d6122, 0xfde5380c, 0xa4beea44, 0x4bdecfa9, 0xf6bb4b60, 0xbebfbc70] ++
  [0x289b7ec6, 0xeaa127fa, 0xd4ef3085, 0x04881d05, 0xd9d4d039, 0xe6db99e5, 0x1fa27cf8, 0xc4ac5665] ++
  [0xf4292244, 0x432aff97, 0xab9423a7, 0xfc93a039, 0x655b59c3, 0x8f0ccc92, 0xffeff47d, 0x85845dd1] ++
  [0x6fa87e4f, 0xfe2ce6e0, 0xa3014314, 0x4e0811a1, 0xf7537e82, 0xbd3af235, 0x2ad7d2bb, 0xeb86d391]

/-- The rotation amounts S_A[q][0..3], one row per group (R197). -/
def tableSA : List (List Nat) := [[7, 12, 17, 22], [5, 9, 14, 20], [4, 11, 16, 23], [6, 10, 15, 21]]

/-- The message-word indices K_A[0..63] (R198). -/
def tableKA : List Nat :=
  [0, 1, 2, 3, 4, 5, 6, 7, 8, 9, 10, 11, 12, 13, 14, 15] ++
  [1, 6, 11, 0, 5, 10, 15, 4, 9, 14, 3, 8, 13, 2, 7, 12] ++
  [5, 8, 11, 14, 1, 4, 7, 10, 13, 0, 3, 6, 9, 12, 15, 2] ++
  [0, 7, 14, 5, 12, 3, 10, 1, 8, 15, 6, 13, 4, 11, 2, 9]

/-- T_A[i] for step i in 0..63. -/
def constA (i : Nat) : Word := tableTA.getD i 0

/-- S_A[i div 16][i mod 4], the rotation of step i (R197). -/
def rotA (i : Nat) : Nat := (tableSA.getD (i / 16) []).getD (i % 4) 0

/-- K_A[i], the message word step i reads (R198). -/
def indexA (i : Nat) : Nat := tableKA.getD i 0

/-- StepA(i) on the working registers, X giving the message words (R199). -/
def stepA (X : Nat → Word) (r : RegsA) (i : Nat) : RegsA :=
  let f := roundA (i / 16) r.b r.c r.d
  let t := r.b + rol (r.a + f + X (indexA i) + constA i) (rotA i)
  ⟨r.d, t, r.b, r.c⟩

/-- The decoded block of A: X[j] = LE32(blk, 4j) (20_memory.md R84). -/
def wordsA (blk : List Byte) (j : Nat) : Word := le32 blk (4 * j)

/-- The working registers after the 64 steps (R200). -/
def stepsA (h : RegsA) (blk : List Byte) : RegsA :=
  (List.range Config.stepsA).foldl (stepA (wordsA blk)) h

/-- CompressA (R200): the 64 steps, then the final additions, position by position. -/
def compressA (h : RegsA) (blk : List Byte) : RegsA :=
  let r := stepsA h blk
  ⟨h.a + r.a, h.b + r.b, h.c + r.c, h.d + r.d⟩

end Sys2Proof.Machine
end

