-- ==== Sys2Proof/Machine/CompressB.lean ====
section
/-! DEFINITION. Compression engine B, the 160-bit algorithm, and its message schedule in both forms the spec gives (spec/43_compress_b.md R250 to R260). -/

namespace Sys2Proof.Machine

/-- The working registers a..e; also the five state words as CompressB takes them are `StateWords` (R50). -/
structure RegsB where
  a : Word
  b : Word
  c : Word
  d : Word
  e : Word
deriving DecidableEq, Repr

/-- IV_B, the initial constants of H[0..4]; the first four are A's (R250). -/
def ivB : StateWords := ⟨0x67452301, 0xefcdab89, 0x98badcfe, 0x10325476, 0xc3d2e1f0⟩

/-- fB0, Ch (R252). -/
def fB0 (x y z : Word) : Word := (x &&& y) ||| (~~~x &&& z)

/-- fB1, Parity (R253). -/
def fB1 (x y z : Word) : Word := x ^^^ y ^^^ z

/-- fB2, Maj (R254). -/
def fB2 (x y z : Word) : Word := (x &&& y) ||| (x &&& z) ||| (y &&& z)

/-- fB3, Parity (R253). -/
def fB3 (x y z : Word) : Word := x ^^^ y ^^^ z

/-- fB_q, the round function of group q in 0..3 (R251). -/
def roundB (q : Nat) (x y z : Word) : Word :=
  match q with
  | 0 => fB0 x y z
  | 1 => fB1 x y z
  | 2 => fB2 x y z
  | _ => fB3 x y z

/-- The round constants K_B[0..3] (R255). -/
def tableKB : List Word := [0x5a827999, 0x6ed9eba1, 0x8f1bbcdc, 0xca62c1d6]

/-- K_B[t div 20], the constant of step t (R251, R255). -/
def constB (t : Nat) : Word := tableKB.getD (t / 20) 0

/-- The decoded block of B: W[j] = BE32(blk, 4j) for j in 0..15 (20_memory.md R85). -/
def wordsB (blk : List Byte) : List Word := (List.range 16).map fun j => be32 blk (4 * j)

/-- One schedule word, `rol(W[t-3] ^ W[t-8] ^ W[t-14] ^ W[t-16], 1)` for t ≥ 16 (R256, C3). -/
def scheduleWord (ws : List Word) (t : Nat) : Word :=
  rol (ws.getD (t - 3) 0 ^^^ ws.getD (t - 8) 0 ^^^ ws.getD (t - 14) 0 ^^^ ws.getD (t - 16) 0) 1

/-- The message schedule W[0..79] as a sequence: 16 decoded words, then 64 expanded ones (R256). -/
def scheduleB (blk : List Byte) : List Word :=
  (List.range 64).foldl (fun ws k => ws ++ [scheduleWord ws (k + 16)]) (wordsB blk)

/-- One step of the 16-word circular buffer: the word w of step t and the buffer after it (R257). -/
def circularStep (wc : List Word) (t : Nat) : Word × List Word :=
  if t < 16 then (wc.getD t 0, wc)
  else
    let w := rol (wc.getD ((t + 13) % 16) 0 ^^^ wc.getD ((t + 8) % 16) 0 ^^^
      wc.getD ((t + 2) % 16) 0 ^^^ wc.getD (t % 16) 0) 1
    (w, wc.set (t % 16) w)

/-- The words w of steps t, t+1, …, t+n-1, starting from the circular buffer wc (R257). -/
def circularWords (wc : List Word) (t : Nat) : Nat → List Word
  | 0 => []
  | n + 1 =>
    let p := circularStep wc t
    p.1 :: circularWords p.2 (t + 1) n

/-- StepB(t) on the working registers, W being the schedule (R258). -/
def stepB (W : List Word) (r : RegsB) (t : Nat) : RegsB :=
  let tmp := rol r.a 5 + roundB (t / 20) r.b r.c r.d + r.e + constB t + W.getD t 0
  ⟨tmp, r.a, rol r.b 30, r.c, r.d⟩

/-- The working registers after the 80 steps over the schedule W (R259). -/
def stepsB (W : List Word) (h : StateWords) : RegsB :=
  (List.range Config.stepsB).foldl (stepB W) ⟨h.h0, h.h1, h.h2, h.h3, h.h4⟩

/-- CompressB (R259): the 80 steps, then the final additions, position by position. -/
def compressB (h : StateWords) (blk : List Byte) : StateWords :=
  let r := stepsB (scheduleB blk) h
  ⟨h.h0 + r.a, h.h1 + r.b, h.h2 + r.c, h.h3 + r.d, h.h4 + r.e⟩

end Sys2Proof.Machine
end

