-- ==== Sys2Proof/Machine/Flags.lean ====
section
/-! DEFINITION. The status information of the core: error codes (spec/60_exceptions.md R380), the sticky ERR rule (R381), the fill and the STAT view (spec/10_state.md R46, R49). The core has no condition codes (R52). -/

namespace Sys2Proof.Machine

/-- PHASE = IDLE (R41). -/
abbrev phaseIdle : BitVec 2 := 0
/-- PHASE = ABSORB (R41). -/
abbrev phaseAbsorb : BitVec 2 := 1
/-- PHASE = DONE (R41). -/
abbrev phaseDone : BitVec 2 := 2

/-- STATUS 0x00, OK (R380). -/
abbrev statusOk : BitVec 8 := 0x00
/-- E_ILLEGAL (R380, R382). -/
abbrev eIllegal : BitVec 8 := 0x01
/-- E_NOSESSION (R380, R383). -/
abbrev eNoSession : BitVec 8 := 0x02
/-- E_MISUSE (R380, R384). -/
abbrev eMisuse : BitVec 8 := 0x03
/-- E_NOTREADY (R380, R385). -/
abbrev eNotReady : BitVec 8 := 0x04
/-- E_RANGE (R380, R386). -/
abbrev eRange : BitVec 8 := 0x05

/-- ERR after a failure with code e: e if ERR was 0, else unchanged (R381 (ii)). -/
def stickyErr (old e : BitVec 8) : BitVec 8 := if old = 0 then e else old

/-- `TOTAL[5:0]` (R46). -/
def CoreState.fillBits (c : CoreState) : BitVec 6 := c.total.extractLsb' 0 6

/-- The fill as a buffer position, 0..63 (R46). -/
def CoreState.fill (c : CoreState) : Nat := c.fillBits.toNat

/-- The STAT view of R49, field by field from bit 31 down. -/
def CoreState.stat (c : CoreState) : Word :=
  (0 : BitVec 2) ++ c.dlen ++ c.err ++ (0 : BitVec 6) ++ c.fillBits ++ (0 : BitVec 1) ++ c.alg ++ c.phase

end Sys2Proof.Machine
end

