-- ==== Sys2Proof/Machine/Ops.lean ====
section
/-! DEFINITION. The named operations over the buffer, the digest latch and the registers, how a command answers, and how it fails (spec/20_memory.md R80; spec/00_scope.md R13; spec/60_exceptions.md R381). -/

namespace Sys2Proof.Machine

/-- What a command answers. -/
abbrev Result := Host.Outcome State Fault Refusal

/-- The byte at offset k: the listed byte, or 0 (log 7). -/
def Memory.get : Memory → Nat → Byte
  | [], _ => 0
  | (a, x) :: m, k => if a = k then x else Memory.get m k

/-- `BUF[k] <- b`, keeping the canonical form: a byte 0 is not listed. -/
def Memory.set : Memory → Nat → Byte → Memory
  | [], k, b => if b = 0 then [] else [(k, b)]
  | (a, x) :: m, k, b =>
    if k < a then (if b = 0 then (a, x) :: m else (k, b) :: (a, x) :: m)
    else if k = a then (if b = 0 then m else (k, b) :: m)
    else (a, x) :: Memory.set m k b

/-- The canonical form from offset lo up: offsets strictly rising, inside the buffer, no byte 0. -/
def Memory.wfFrom : Nat → Memory → Bool
  | _, [] => true
  | lo, (a, x) :: m => decide (lo ≤ a) && decide (a < Config.blockBytes) && decide (x ≠ 0) && Memory.wfFrom (a + 1) m

/-- The canonical form of the buffer. -/
def Memory.wf (m : Memory) : Bool := Memory.wfFrom 0 m

/-- Write the bytes s at offsets k, k+1, … (R80's loop). -/
def Memory.setAll : Memory → Nat → List Byte → Memory
  | m, _, [] => m
  | m, k, b :: s => Memory.setAll (Memory.set m k b) (k + 1) s

/-- `MemWrite(k, n, s)` with n = len(s) (R80): outside its precondition, a fault of the model (ID11). -/
def memWrite (k : Nat) (s : List Byte) (m : Memory) : Except Fault Memory :=
  if 1 ≤ s.length ∧ k + s.length ≤ Config.blockBytes then .ok (m.setAll k s) else .error .bufferRange

/-- `MemRead(k, n)` (R80): outside its precondition, a fault of the model (ID11). -/
def memRead (k n : Nat) (m : Memory) : Except Fault (List Byte) :=
  if 1 ≤ n ∧ k + n ≤ Config.blockBytes then .ok ((List.range n).map fun j => m.get (k + j))
  else .error .bufferRange

/-- The first n bytes of the digest latch; DG has 20 (R47; log 8). -/
def latchRead (n : Nat) (dg : Vector Byte 20) : Except Fault (List Byte) :=
  if n ≤ Config.latchBytes then .ok (dg.toList.take n) else .error .latchRange

/-- The state words an A compression works on (R200). -/
def StateWords.regsA (h : StateWords) : RegsA := ⟨h.h0, h.h1, h.h2, h.h3⟩

/-- `(H[0], H[1], H[2], H[3]) <- r`; H[4] keeps its value (R43, R150). -/
def StateWords.withRegsA (h : StateWords) (r : RegsA) : StateWords := { h with h0 := r.a, h1 := r.b, h2 := r.c, h3 := r.d }

/-- The compression the algorithm tag selects (R150). -/
def compress (alg : BitVec 1) (h : StateWords) (blk : List Byte) : StateWords :=
  if alg = 0 then h.withRegsA (compressA h.regsA blk) else compressB h blk

/-- The initial constants the algorithm tag selects; under A, H[4] is 0 (R190, R250, R351). -/
def initialWords (alg : BitVec 1) : StateWords :=
  if alg = 0 then StateWords.zero.withRegsA ivA else ivB

/-- `rsp(OK, data)` after leaving the core in c: one response, delivered with the command (R111, R13). -/
def complete (c : CoreState) (data : Word) (s : State) : Result :=
  .next { s with core := c, responses := ⟨statusOk, data⟩ :: s.responses }

/-- `raise Error(e)` (R13, R381), the one way a command fails: no state changes but the sticky ERR,
and the response is `rsp(e, 0)`. The model's own fault bit is set (R399). There is no trap (R388). -/
def raiseError (e : BitVec 8) (s : State) : Result :=
  .next { s with
    core := { s.core with err := stickyErr s.core.err e }
    responses := ⟨e, 0⟩ :: s.responses
    faultSeen := true }

/-- A command that is legal in every phase: in PHASE = 3 "no command is defined" (ID8; log 6). -/
def inAnyPhase (s : State) (k : Result) : Result :=
  if s.core.phase = 3 then .fault .phaseUndefined else k

/-- The phase check of FEEDn and FINISH (R383, R384, R387). -/
def inAbsorb (s : State) (k : Result) : Result :=
  inAnyPhase s
    (if s.core.phase = phaseIdle then raiseError eNoSession s
     else if s.core.phase = phaseDone then raiseError eMisuse s
     else k)

/-- The phase check of RDHEX and RDRAW (R385, R387). -/
def inDone (s : State) (k : Result) : Result :=
  inAnyPhase s (if s.core.phase = phaseDone then k else raiseError eNotReady s)

/-- A command whose work ended in c, or in a fault of the model. -/
def finishWith (r : Except Fault CoreState) (data : CoreState → Word) (s : State) : Result :=
  match r with
  | .ok c => complete c (data c) s
  | .error f => .fault f

end Sys2Proof.Machine
end

