-- ==== Sys2Proof/Machine/Session.lean ====
section
/-! DEFINITION. The session commands NOP, START_A, START_B, WIPE, RDSTAT, RDCNTL, RDCNTH (spec/45_session.md R350 to R356), the illegal word (spec/60_exceptions.md R382) and reset (spec/70_reset_and_hazards.md R430). -/

namespace Sys2Proof.Machine

/-- `WipeAll()`: every register to 0, PHASE to IDLE (R353). -/
def wipeAll (c : CoreState) : CoreState :=
  { c with
    h := StateWords.zero
    buf := []
    dg := Vector.replicate 20 0
    total := 0
    dlen := 0
    alg := 0
    err := 0
    phase := phaseIdle }

/-- The body of START_A and START_B: wipe, load the initial constants, set ALG, enter ABSORB (R351, R352). -/
def startSession (alg : BitVec 1) (c : CoreState) : CoreState :=
  { wipeAll c with h := initialWords alg, alg := alg, phase := phaseAbsorb }

/-- NOP (R350). -/
def execNop (s : State) : Result := inAnyPhase s (complete s.core 0 s)

/-- START_A (R351). -/
def execStartA (s : State) : Result := inAnyPhase s (complete (startSession 0 s.core) 0 s)

/-- START_B (R352). -/
def execStartB (s : State) : Result := inAnyPhase s (complete (startSession 1 s.core) 0 s)

/-- WIPE (R353). -/
def execWipe (s : State) : Result := inAnyPhase s (complete (wipeAll s.core) 0 s)

/-- RDSTAT (R354). -/
def execRdstat (s : State) : Result := inAnyPhase s (complete s.core s.core.stat s)

/-- RDCNTL: TOTAL[31:0] (R355). -/
def execRdcntl (s : State) : Result := inAnyPhase s (complete s.core (s.core.total.extractLsb' 0 32) s)

/-- RDCNTH: TOTAL[63:32] (R356). -/
def execRdcnth (s : State) : Result := inAnyPhase s (complete s.core (s.core.total.extractLsb' 32 32) s)

/-- A word that decodes to nothing fails with E_ILLEGAL, "in any phase" (R116, R382). -/
def execIllegal (s : State) : Result := inAnyPhase s (raiseError eIllegal s)

/-- Reset between commands: every register at its reset value, whatever the phase (R430, R431).
The host keeps the responses it has, the actions it has yet to take and the recorded fault (log 9). -/
def hostReset (s : State) : Result := .next { s with core := CoreState.reset }

end Sys2Proof.Machine
end

