-- ==== Sys2Proof/Machine/Accumulator.lean ====
section
/-! DEFINITION. The block accumulator and the FEED commands (spec/41_accumulator.md R150 to R157), byte by byte as R151 states it, and the source's stride form of R152. -/

namespace Sys2Proof.Machine

/-- `AbsorbByte(p, b)`: write b at position p; the byte at 63 completes the block and compresses it.
Returns the next position (R150). -/
def absorbByte (p : Nat) (b : Byte) (c : CoreState) : Except Fault (CoreState × Nat) := do
  let buf ← memWrite p [b] c.buf
  if p = 63 then
    let blk ← memRead 0 Config.blockBytes buf
    return ({ c with buf := buf, h := compress c.alg c.h blk }, 0)
  else
    return ({ c with buf := buf }, p + 1)

/-- `Feed(s)`: absorb each byte at the fill position and count it (R151). -/
def feed : List Byte → CoreState → Except Fault CoreState
  | [], c => .ok c
  | b :: s, c => do
    let r ← absorbByte c.fill b c
    feed s { r.1 with total := r.1.total + 1 }

/-- The body of FEEDn: the phase check, then Feed of the operand bytes (R153 to R156). -/
def feedCommand (bytes : List Byte) (s : State) : Result :=
  inAbsorb s (finishWith (feed bytes s.core) (fun _ => 0) s)

/-- FEED1 (R153). -/
def execFeed1 (b0 : Byte) (s : State) : Result := feedCommand [b0] s

/-- FEED2 (R154). -/
def execFeed2 (b0 b1 : Byte) (s : State) : Result := feedCommand [b0, b1] s

/-- FEED3 (R155). -/
def execFeed3 (b0 b1 b2 : Byte) (s : State) : Result := feedCommand [b0, b1, b2] s

/-- FEED4 (R156). -/
def execFeed4 (b0 b1 b2 b3 : Byte) (s : State) : Result := feedCommand [b0, b1, b2, b3] s

/-- The complete 64-byte blocks of a byte string, in order (R15 "block"). -/
def completeBlocks (s : List Byte) : List (List Byte) :=
  (List.range (s.length / 64)).map fun k => (s.drop (64 * k)).take 64

/-- The state words after compressing the blocks in order. -/
def compressBlocks (alg : BitVec 1) (h : StateWords) (blocks : List (List Byte)) : StateWords :=
  blocks.foldl (compress alg) h

/-- The bytes after the last complete block. -/
def tailBytes (s : List Byte) : List Byte := s.drop (64 * (s.length / 64))

/-- `SourceFeed(s)`, the source's stride algorithm (R152): top the buffer up and compress it, compress
whole blocks straight from the input, then keep the tail. -/
def sourceFeed (s : List Byte) (c : CoreState) : Except Fault CoreState := do
  let fill := c.fill
  let counted := { c with total := c.total + BitVec.ofNat 64 s.length }
  if fill + s.length < 64 then
    if s = [] then return counted
    else
      let buf ← memWrite fill s c.buf
      return { counted with buf := buf }
  else
    let buf ← memWrite fill (s.take (64 - fill)) c.buf
    let blk ← memRead 0 Config.blockBytes buf
    let rest := s.drop (64 - fill)
    let h := compressBlocks c.alg (compress c.alg c.h blk) (completeBlocks rest)
    let tail := tailBytes rest
    if tail = [] then return { counted with buf := buf, h := h }
    else
      let buf ← memWrite 0 tail buf
      return { counted with buf := buf, h := h }

end Sys2Proof.Machine
end

