-- ==== Sys2Proof/Machine/Finalizer.lean ====
section
/-! DEFINITION. The padding controller, FINISH and the digest reads RDHEX and RDRAW (spec/44_finalizer.md R300 to R314). -/

namespace Sys2Proof.Machine

/-- `PadBytes(f)`: 0x80, then (55 - f) mod 64 zero bytes (R300). -/
def padBytes (f : Nat) : List Byte := 0x80 :: List.replicate ((119 - f) % 64) 0

/-- The bit count `L = (TOTAL × 8) mod 2^64` (R301). -/
def bitCount (total : Word64) : Word64 := total <<< 3

/-- The 8-byte length field: little-endian for A, big-endian for B (R302). -/
def lengthField (alg : BitVec 1) (total : Word64) : List Byte :=
  if alg = 0 then le64bytes (bitCount total) else be64bytes (bitCount total)

/-- The bytes FINISH appends at fill f after TOTAL bytes (R303). -/
def padding (alg : BitVec 1) (f : Nat) (total : Word64) : List Byte := padBytes f ++ lengthField alg total

/-- R303's loop: absorb the bytes from position p on, not counting them. -/
def absorbAll : List Byte → Nat → CoreState → Except Fault (CoreState × Nat)
  | [], p, c => .ok (c, p)
  | b :: s, p, c => do
    let r ← absorbByte p b c
    absorbAll s r.2 r.1

/-- `Pad()` (R303): TOTAL is not changed. -/
def pad (c : CoreState) : Except Fault CoreState := do
  let r ← absorbAll (padding c.alg c.fill c.total) c.fill c
  return r.1

/-- The digest bytes of A: each of H[0..3] least significant byte first; DG[16..19] are 0 (R307, R311). -/
def digestBytesA (h : StateWords) : Vector Byte 20 :=
  Vector.ofFn fun k => if k.val < 16 then byteLE (h.get (k.val / 4)) (k.val % 4) else 0

/-- The digest bytes of B: each of H[0..4] most significant byte first (R308). -/
def digestBytesB (h : StateWords) : Vector Byte 20 :=
  Vector.ofFn fun k => byteBE (h.get (k.val / 4)) (k.val % 4)

/-- The latched bytes for the algorithm (R311). -/
def digestBytes (alg : BitVec 1) (h : StateWords) : Vector Byte 20 :=
  if alg = 0 then digestBytesA h else digestBytesB h

/-- The hex length of the algorithm's digest (R306, R311). -/
def hexLength (alg : BitVec 1) : BitVec 6 := if alg = 0 then Config.hexLenA else Config.hexLenB

/-- FINISH after Pad(): latch the digest, wipe H, BUF and TOTAL, enter DONE; ALG stays (R311). -/
def latchDigest (c : CoreState) : CoreState :=
  { c with
    dg := digestBytes c.alg c.h
    dlen := hexLength c.alg
    h := StateWords.zero
    buf := []
    total := 0
    phase := phaseDone }

/-- FINISH: all or nothing; RDATA is DLEN (R311, D24). -/
def execFinish (s : State) : Result :=
  inAbsorb s (finishWith (latchDigest <$> pad s.core) (fun c => c.dlen.setWidth 32) s)

/-- The hex digest HEX[0 .. DLEN-1], computed from the latch (R310). -/
def hexDigest (c : CoreState) : Except Fault (List Byte) := do
  let bytes ← latchRead (c.dlen.toNat / 2) c.dg
  return hexOf bytes

/-- A read of the 4-byte group j of a digest form, low byte first, in DONE and in range (R313, R314). -/
def readGroup (form : Except Fault (List Byte)) (groups idx : Nat) (s : State) : Result :=
  inDone s
    (if groups ≤ idx then raiseError eRange s
     else match form with
      | .ok bytes => complete s.core (le32 bytes (4 * idx)) s
      | .error f => .fault f)

/-- RDHEX j (R313): characters 4j..4j+3, in range below DLEN / 4. -/
def execRdhex (idx : Nat) (s : State) : Result :=
  readGroup (hexDigest s.core) (s.core.dlen.toNat / 4) idx s

/-- RDRAW j (R314): digest bytes 4j..4j+3, in range below DLEN / 8. -/
def execRdraw (idx : Nat) (s : State) : Result :=
  readGroup (latchRead (s.core.dlen.toNat / 2) s.core.dg) (s.core.dlen.toNat / 8) idx s

end Sys2Proof.Machine
end

