-- ==== Sys2Proof/Machine/Dispatch.lean ====
section
/-! DEFINITION. exec: one arm per command, each one call of its meaning. -/

namespace Sys2Proof.Machine

def exec (i : Instr) (s : State) : Host.Outcome State Fault Refusal :=
  match i with
  | .nop => Sys2Proof.Machine.execNop s
  | .startA => Sys2Proof.Machine.execStartA s
  | .startB => Sys2Proof.Machine.execStartB s
  | .wipe => Sys2Proof.Machine.execWipe s
  | .rdstat => Sys2Proof.Machine.execRdstat s
  | .rdcntl => Sys2Proof.Machine.execRdcntl s
  | .rdcnth => Sys2Proof.Machine.execRdcnth s
  | .feed1 b0 => Sys2Proof.Machine.execFeed1 b0 s
  | .feed2 b0 b1 => Sys2Proof.Machine.execFeed2 b0 b1 s
  | .feed3 b0 b1 b2 => Sys2Proof.Machine.execFeed3 b0 b1 b2 s
  | .feed4 b0 b1 b2 b3 => Sys2Proof.Machine.execFeed4 b0 b1 b2 b3 s
  | .finish => Sys2Proof.Machine.execFinish s
  | .rdhex idx => Sys2Proof.Machine.execRdhex idx s
  | .rdraw idx => Sys2Proof.Machine.execRdraw idx s

end Sys2Proof.Machine
end

