-- ==== Sys2Proof/Machine/Port.lean ====
section
/-! DEFINITION. The command port: what one host action does (spec/00_scope.md R7; spec/70_reset_and_hazards.md R431, R440, R441). -/

namespace Sys2Proof.Machine

/-- One command word taken from the port: decode first, before any state is read (R117, R387). -/
def runCommand (w : Word64) (s : State) : Result :=
  match decode w with
  | some i => exec i s
  | none => execIllegal s

/-- One host action, the actions still to come being already those after it. -/
def act (a : HostAction) (s : State) : Result :=
  match a with
  | .command w => runCommand w s
  | .overlapped _ => .refused .overlappingCommand
  | .reset => hostReset s
  | .resetDuring _ => .refused .resetDuringCommand

/-- The port with the command word w as the host's next action. -/
def issueFirst (w : Word64) (s : State) : State := { s with pending := .command w :: s.pending }

end Sys2Proof.Machine
end

