-- ==== Sys2Proof/Machine/Step.lean ====
section
/-! DEFINITION. One step of the machine: the core takes the host's next action, wholly (spec/00_scope.md R7; spec/20_memory.md R89, R93). -/

namespace Sys2Proof.Machine

/-- One step. With no action pending there is none: "the core never steps on its own" (R440; log 4). -/
def step (s : State) : Host.Outcome State Fault Refusal :=
  match s.pending with
  | [] => .refused .noCommand
  | a :: rest => act a { s with pending := rest }

/-- s with the table's word as the host's next command, so that the very next step runs it (logs 1, 18). -/
def State.withFetchWord (s : State) (nbits w : Nat) : State := issueFirst (tableWord nbits w) s

end Sys2Proof.Machine
end

