-- ==== Sys2Proof/Machine/Assembler.lean ====
section
/-! DEFINITION. The assembler syntax of one line, written and read (spec/30_encoding.md R118; log 15). -/

namespace Sys2Proof.Machine

/-- A mnemonic in upper case, as the opcode map spells it (R115, R118). -/
def mnemonicText : Mnemonic → List Char
  | .nop => ['N', 'O', 'P']
  | .startA => ['S', 'T', 'A', 'R', 'T', '_', 'A']
  | .startB => ['S', 'T', 'A', 'R', 'T', '_', 'B']
  | .wipe => ['W', 'I', 'P', 'E']
  | .rdstat => ['R', 'D', 'S', 'T', 'A', 'T']
  | .rdcntl => ['R', 'D', 'C', 'N', 'T', 'L']
  | .rdcnth => ['R', 'D', 'C', 'N', 'T', 'H']
  | .feed1 => ['F', 'E', 'E', 'D', '1']
  | .feed2 => ['F', 'E', 'E', 'D', '2']
  | .feed3 => ['F', 'E', 'E', 'D', '3']
  | .feed4 => ['F', 'E', 'E', 'D', '4']
  | .finish => ['F', 'I', 'N', 'I', 'S', 'H']
  | .rdhex => ['R', 'D', 'H', 'E', 'X']
  | .rdraw => ['R', 'D', 'R', 'A', 'W']

/-- The digits 0..15 as characters, lower case. -/
def digitChars : List Char :=
  ['0', '1', '2', '3', '4', '5', '6', '7', '8', '9', 'a', 'b', 'c', 'd', 'e', 'f']

/-- A byte operand, 2-digit hex with a 0x prefix (R118). -/
def byteText (b : Byte) : List Char :=
  ['0', 'x', digitChars.getD (b.toNat / 16) '0', digitChars.getD (b.toNat % 16) '0']

/-- A decimal index 0..15 (R118). -/
def indexText (n : Nat) : List Char :=
  if n < 10 then [digitChars.getD n '0'] else ['1', digitChars.getD (n - 10) '0']

/-- Operands in order, separated by a comma and a space (R118's examples). -/
def operandsText : List (List Char) → List Char
  | [] => []
  | [t] => t
  | t :: ts => t ++ [',', ' '] ++ operandsText ts

/-- The operands of a command as texts, the first operand being B0 (R118). -/
def operandTexts : Instr → List (List Char)
  | .nop => []
  | .startA => []
  | .startB => []
  | .wipe => []
  | .rdstat => []
  | .rdcntl => []
  | .rdcnth => []
  | .feed1 b0 => [byteText b0]
  | .feed2 b0 b1 => [byteText b0, byteText b1]
  | .feed3 b0 b1 b2 => [byteText b0, byteText b1, byteText b2]
  | .feed4 b0 b1 b2 b3 => [byteText b0, byteText b1, byteText b2, byteText b3]
  | .finish => []
  | .rdhex idx => [indexText idx]
  | .rdraw idx => [indexText idx]

/-- The line of a command (R118). -/
def assemblyLine (i : Instr) : List Char :=
  match operandTexts i with
  | [] => mnemonicText i.mnemonic
  | ts => mnemonicText i.mnemonic ++ ' ' :: operandsText ts

/-- A text without the spaces around it. -/
def trim (t : List Char) : List Char :=
  ((t.dropWhile fun c => c == ' ').reverse.dropWhile fun c => c == ' ').reverse

/-- The parts of a text between its commas. -/
def splitCommas : List Char → List (List Char)
  | [] => [[]]
  | c :: cs =>
    if c = ',' then [] :: splitCommas cs
    else match splitCommas cs with
      | [] => [[c]]
      | t :: ts => (c :: t) :: ts

/-- The value of a hex digit; upper case letters are read as well (log 15). -/
def digitValue (c : Char) : Option Nat :=
  (digitChars.findIdx? fun d => d == c).or
    ((['A', 'B', 'C', 'D', 'E', 'F'].findIdx? fun d => d == c).map fun n => n + 10)

/-- A byte operand read back. -/
def readByte : List Char → Option Byte
  | ['0', 'x', h, l] => do return BitVec.ofNat 8 (16 * (← digitValue h) + (← digitValue l))
  | _ => none

/-- A decimal index read back: one digit, or a 1 and a digit up to 5. -/
def readIndex : List Char → Option Nat
  | [d] => (digitValue d).filter fun n => n < 10
  | ['1', d] => ((digitValue d).filter fun n => n < 6).map fun n => n + 10
  | _ => none

/-- The mnemonic a text spells. -/
def readMnemonic (t : List Char) : Option Mnemonic :=
  (opcodeMap.map fun r => r.mnemonic).find? fun m => mnemonicText m == t

/-- The command of a mnemonic and its operand texts; none where the operands are not its format's (R118). -/
def readCommand (m : Mnemonic) (ops : List (List Char)) : Option Instr :=
  match m, ops with
  | .nop, [] => some .nop
  | .startA, [] => some .startA
  | .startB, [] => some .startB
  | .wipe, [] => some .wipe
  | .rdstat, [] => some .rdstat
  | .rdcntl, [] => some .rdcntl
  | .rdcnth, [] => some .rdcnth
  | .feed1, [o0] => do return .feed1 (← readByte o0)
  | .feed2, [o0, o1] => do return .feed2 (← readByte o0) (← readByte o1)
  | .feed3, [o0, o1, o2] => do return .feed3 (← readByte o0) (← readByte o1) (← readByte o2)
  | .feed4, [o0, o1, o2, o3] => do
    return .feed4 (← readByte o0) (← readByte o1) (← readByte o2) (← readByte o3)
  | .finish, [] => some .finish
  | .rdhex, [o0] => do return .rdhex (← readIndex o0)
  | .rdraw, [o0] => do return .rdraw (← readIndex o0)
  | _, _ => none

/-- The command on a line: a `;` starts a comment, the mnemonic ends at a space, operands stand
between commas (R118; log 15). -/
def assembleLine (line : List Char) : Option Instr := do
  let body := trim (line.takeWhile fun c => c != ';')
  let rest := trim (body.dropWhile fun c => c != ' ')
  let m ← readMnemonic (body.takeWhile fun c => c != ' ')
  readCommand m (if rest = [] then [] else (splitCommas rest).map trim)

end Sys2Proof.Machine
end

