-- ==== Sys2Proof/Machine/Platform.lean ====
section
/-! DEFINITION. Several independent instances, each with its whole state and its own command port (spec/60_exceptions.md R396; spec/00_scope.md R9). -/

namespace Sys2Proof.Machine

/-- The instances of a platform. They share nothing (R396). -/
structure Platform where
  instances : List State
deriving DecidableEq, Repr

/-- A platform holds N_INSTANCES instances (R9; log 11). -/
def Platform.wf (p : Platform) : Prop := p.instances.length = Config.nInstances

/-- One step of instance k (R396). -/
def Platform.step (k : Nat) (p : Platform) : Host.Outcome Platform Fault Refusal :=
  match p.instances[k]? with
  | none => .refused .noInstance
  | some s =>
    match Machine.step s with
    | .next t => .next { instances := p.instances.set k t }
    | .fault f => .fault f
    | .refused r => .refused r

end Sys2Proof.Machine
end

