-- ==== Sys2Proof/Machine/Pseudo.lean ====
section
/-! DEFINITION. The pseudo-instructions FEEDSTR and DIGEST as the commands they expand to, and the hex string a host puts together (spec/30_encoding.md R119, R120). -/

namespace Sys2Proof.Machine

/-- `FEEDSTR s`: FEED4 over consecutive 4-byte slices, then one FEEDr over the last r bytes (R119). -/
def feedStr : List Byte → List Instr
  | [] => []
  | [b0] => [.feed1 b0]
  | [b0, b1] => [.feed2 b0 b1]
  | [b0, b1, b2] => [.feed3 b0 b1 b2]
  | b0 :: b1 :: b2 :: b3 :: s => .feed4 b0 b1 b2 b3 :: feedStr s

/-- START_A or START_B, by the algorithm (R120). -/
def startOf (alg : BitVec 1) : Instr := if alg = 0 then .startA else .startB

/-- The number of RDHEX groups of a digest: 8 for A, 10 for B (R120). -/
def hexGroups (alg : BitVec 1) : Nat := if alg = 0 then 8 else 10

/-- `DIGEST alg, s`: START, FEEDSTR s, FINISH, the RDHEX reads in index order, WIPE (R120). -/
def digestCommands (alg : BitVec 1) (s : List Byte) : List Instr :=
  startOf alg :: feedStr s ++ .finish :: (List.range (hexGroups alg)).map .rdhex ++ [.wipe]

/-- The host's actions that issue the commands one after another, each after the response to the one before (R441). -/
def issue (is : List Instr) : List HostAction := is.map fun i => .command (encode i)

/-- The characters of RDHEX responses, in order, each taken low byte first (R120, R313). -/
def hexText (rs : List Response) : List Byte := rs.flatMap fun r => le32bytes r.data

end Sys2Proof.Machine
end

