-- ==== Sys2Proof/Machine/Reference.lean ====
section
/-! DEFINITION. The digest of a whole byte string at once, with no buffer, counter or session: what the streaming core must agree with (spec/10_state.md R53; spec/44_finalizer.md R300 to R308, R316). -/

namespace Sys2Proof.Machine

/-- The message followed by 0x80, zeros and the length field of its wrapped bit count (R300 to R302). -/
def paddedMessage (alg : BitVec 1) (m : List Byte) : List Byte :=
  m ++ padding alg (m.length % 64) (BitVec.ofNat 64 m.length)

/-- The state words after every complete block of the bytes (R53 (ii)). -/
def referenceWords (alg : BitVec 1) (m : List Byte) : StateWords :=
  compressBlocks alg (initialWords alg) (completeBlocks m)

/-- The latched bytes of the digest of m (R305 to R308). -/
def referenceDigest (alg : BitVec 1) (m : List Byte) : Vector Byte 20 :=
  digestBytes alg (referenceWords alg (paddedMessage alg m))

/-- The hex digest of m (R306, R310). -/
def referenceHex (alg : BitVec 1) (m : List Byte) : List Byte :=
  hexOf ((referenceDigest alg m).toList.take ((hexLength alg).toNat / 2))

end Sys2Proof.Machine
end

