-- ==== Sys2Proof/Safety.lean ====
section
/-! DEFINITION. What claims are stated in: the invariants of the core (spec/10_state.md R53), what an ABSORB state remembers of its input, safe runs (spec/60_exceptions.md R399), and states the host cannot tell apart. -/

namespace Sys2Proof.Machine

/-- The machine after a command that succeeded: the core is c, and the one response is `rsp(OK, data)` (R111). -/
def answered (s : State) (c : CoreState) (data : Word) : State :=
  { core := c, pending := s.pending, responses := ⟨0x00, data⟩ :: s.responses, faultSeen := s.faultSeen }

/-- The machine after a command that failed with code e: nothing changed but the sticky ERR, and the
one response is `rsp(e, 0)` (R381); the model's fault bit is set (R399). -/
def failed (s : State) (e : BitVec 8) : State :=
  { core := { s.core with err := if s.core.err = 0 then e else s.core.err }
    pending := s.pending, responses := ⟨e, 0⟩ :: s.responses, faultSeen := true }

/-- The word, issued in any phase the spec gives, fails with E_ILLEGAL and has no other effect (R116, R382). -/
def FailsIllegal (w : Word64) : Prop :=
  ∀ (s : State) (rest : List HostAction), s.pending = .command w :: rest → s.core.phase ≠ 3 →
    Machine.step s = .next (failed { s with pending := rest } 0x01)

/-- The bytes a FEED command feeds, in input order (R83); no other command feeds any. -/
def fedBytes : Instr → List Byte
  | .feed1 b0 => [b0]
  | .feed2 b0 b1 => [b0, b1]
  | .feed3 b0 b1 b2 => [b0, b1, b2]
  | .feed4 b0 b1 b2 b3 => [b0, b1, b2, b3]
  | .nop => []
  | .startA => []
  | .startB => []
  | .wipe => []
  | .rdstat => []
  | .rdcntl => []
  | .rdcnth => []
  | .finish => []
  | .rdhex _ => []
  | .rdraw _ => []

/-- FEED1 to FEED4. -/
def IsFeed (i : Instr) : Prop := fedBytes i ≠ []

/-- FEED1 to FEED4 and FINISH, the commands an ABSORB state is needed for (R383, R384). -/
def NeedsSession (i : Instr) : Prop := IsFeed i ∨ i = .finish

/-- RDHEX and RDRAW, of any index. -/
def IsDigestRead (i : Instr) : Prop := ∃ idx, i = .rdhex idx ∨ i = .rdraw idx

/-- The commands that begin or end a session whatever the phase and clear ERR (R48, R389). -/
def ClearsErr (i : Instr) : Prop := i = .startA ∨ i = .startB ∨ i = .wipe

/-- The commands of a list run one after another by exec, each on the state the one before left. -/
def execAll : List Instr → State → Result
  | [], s => .next s
  | i :: is, s =>
    match exec i s with
    | .next t => execAll is t
    | .fault f => .fault f
    | .refused r => .refused r

/-- The valid, unconsumed bytes of the buffer, `BUF[0 .. fill-1]` (R44). -/
def CoreState.validBytes (c : CoreState) : List Byte := (List.range c.fill).map c.buf.get

/-- The invariants that hold between any two commands and speak of one state (R53 (iii) to (vi)), with
what the registers' own rules add: the buffer's canonical form (log 7), H[4] = 0 under A (R43), an
empty latch outside DONE and zero bytes beyond an A digest (R47), and only the codes of R380 in ERR (R48). -/
structure CoreState.Inv (c : CoreState) : Prop where
  bufWf : c.buf.wf = true
  phaseLegal : c.phase ≠ 3
  idleOrDoneWiped : c.phase ≠ phaseAbsorb → c.h = StateWords.zero ∧ c.buf = [] ∧ c.total = 0
  idleAlg : c.phase = phaseIdle → c.alg = 0
  latchEmpty : c.phase ≠ phaseDone → c.dg = Vector.replicate 20 0 ∧ c.dlen = 0
  absorbH4 : c.alg = 0 → c.h.h4 = 0
  doneLength : c.phase = phaseDone → c.dlen = hexLength c.alg
  doneLatchA : c.alg = 0 → c.dg.toList.drop 16 = [0, 0, 0, 0]
  errCodes : c.err ≤ eRange

/-- The invariant of the machine: the core's, and the fault bit says exactly whether some response so
far carried an error (R399). -/
structure State.Inv (s : State) : Prop where
  core : s.core.Inv
  faultBit : s.faultSeen = s.responses.any fun r => r.status != statusOk

/-- The core is in a session of `alg` that has been fed exactly the bytes `input` (R53 (i), (ii); R45). -/
structure Absorbed (alg : BitVec 1) (input : List Byte) (c : CoreState) : Prop where
  bufWf : c.buf.wf = true
  absorbing : c.phase = phaseAbsorb
  tag : c.alg = alg
  counted : c.total = BitVec.ofNat 64 input.length
  words : c.h = referenceWords alg input
  valid : c.validBytes = tailBytes input

/-- A safe run so far: "no fault recorded" (R399). -/
def NoFaultRecorded (s : State) : Prop := s.faultSeen = false

/-- The digest latch holds nothing (R317, R443). -/
def LatchWiped (c : CoreState) : Prop := c.dg = Vector.replicate 20 0 ∧ c.dlen = 0

/-- Two cores that differ at most in buffer bytes at or beyond the fill (R44, ID3). -/
structure SameButStale (c d : CoreState) : Prop where
  wfLeft : c.buf.wf = true
  wfRight : d.buf.wf = true
  rest : c = { d with buf := c.buf }
  valid : ∀ k, k < c.fill → c.buf.get k = d.buf.get k

/-- The ports of two machines look the same. -/
def SamePort (s t : State) : Prop :=
  s.pending = t.pending ∧ s.responses = t.responses ∧ s.faultSeen = t.faultSeen

end Sys2Proof.Machine
end

