-- ==== Sys2Proof/Certificates/Slice0/Obligations.lean ====
section
/-! DEFINITION. The statements for the provers: what the rules of spec/ say of the commands and of the machine. -/

open Sys2Proof Sys2Proof.Machine

/-! ### Encoding -/

/-- R115, R117: decoding the word of any well-formed command gives that command back, operands included. -/
def Obligations.DecodeOfEncodeIsTheCommand : Prop :=
  ∀ i : Instr, i.wf = true → decode (encode i) = some i

/-- Every accepted word is the one word of the command it decodes to (92_eei_decisions.md D4:
"strict decoding makes every accepted word mean one thing"). -/
def Obligations.EncodeOfDecodeIsTheWord : Prop :=
  ∀ (w : Word64) (i : Instr), decode w = some i → i.wf = true ∧ encode i = w

/-- R115: at most one row of the opcode map spells a word, because the OPC bytes differ. -/
def Obligations.AtMostOneRowSpellsAWord : Prop :=
  opcodeMap.Pairwise (fun r q => r.pattern.extractLsb' 56 8 ≠ q.pattern.extractLsb' 56 8) ∧
  ∀ (w : Word64) (r q : Row), r ∈ opcodeMap → q ∈ opcodeMap → r.spells w = true → q.spells w = true →
    r.mnemonic = q.mnemonic

/-- R116: a word is illegal exactly when its opcode is not listed or a must-be-zero bit is set; an illegal
word, in every phase the spec gives, fails with E_ILLEGAL and has no other effect but the sticky ERR. -/
def Obligations.IllegalExactlyOutsideTheFormats : Prop :=
  (∀ w : Word64,
    let opc := w.extractLsb' 56 8
    decode w = none ↔
      opc ∉ [0x00#8, 0x01#8, 0x02#8, 0x03#8, 0x04#8, 0x05#8, 0x06#8, 0x10#8, 0x11#8, 0x12#8, 0x13#8, 0x20#8, 0x30#8, 0x31#8] ∨
      (opc ∈ [0x00#8, 0x01#8, 0x02#8, 0x03#8, 0x04#8, 0x05#8, 0x06#8, 0x20#8] ∧ w.extractLsb' 0 56 ≠ 0) ∨
      (opc = 0x10#8 ∧ w.extractLsb' 8 48 ≠ 0) ∨
      (opc = 0x11#8 ∧ w.extractLsb' 16 40 ≠ 0) ∨
      (opc = 0x12#8 ∧ w.extractLsb' 24 32 ≠ 0) ∨
      (opc = 0x13#8 ∧ w.extractLsb' 32 24 ≠ 0) ∨
      (opc ∈ [0x30#8, 0x31#8] ∧ w.extractLsb' 4 52 ≠ 0)) ∧
  ∀ w : Word64, decode w = none → FailsIllegal w

/-- 95_test_vectors.md V-N1: words written out from R112 to R115 decode as the commands they stand for. -/
def Obligations.SpecWordsDecodeAsWritten : Prop :=
  decode 0x0000000000000000 = some .nop ∧ decode 0x0200000000000000 = some .startB ∧
  decode 0x1200000000636261 = some (.feed3 0x61 0x62 0x63) ∧
  decode 0x130000007F8000FF = some (.feed4 0xff 0x00 0x80 0x7f) ∧
  decode 0x2000000000000000 = some .finish ∧ decode 0x3100000000000004 = some (.rdraw 4)

/-- R118: the line of a command assembles to that command (the separators read are the model's, log 15). -/
def Obligations.AssembledLineIsTheCommand : Prop :=
  ∀ i : Instr, i.wf = true → assembleLine (assemblyLine i) = some i

/-! ### The port -/

/-- R7, R117: when the host's next action is a word that decodes to i, one step is exec of i, the
action being taken off the list. -/
def Obligations.StepRunsTheDecodedCommand : Prop :=
  ∀ (s : State) (w : Word64) (rest : List HostAction) (i : Instr),
    s.pending = .command w :: rest → decode w = some i → step s = exec i { s with pending := rest }

/-- R430, R431: reset, in whatever phase, sets every register to its value of R54. What reset leaves of
the model's own port fields is the model's choice (log 9). -/
def Obligations.ResetSetsEveryRegister : Prop :=
  ∀ (s : State) (rest : List HostAction), s.pending = .reset :: rest →
    ∃ t, step s = .next t ∧ t.core.phase = 0 ∧ t.core.alg = 0 ∧ t.core.h = ⟨0, 0, 0, 0, 0⟩ ∧
      (∀ k, t.core.buf.get k = 0) ∧ t.core.total = 0 ∧ (∀ k : Fin 20, t.core.dg[k] = 0) ∧
      t.core.dlen = 0 ∧ t.core.err = 0 ∧ t.core = State.reset.core ∧
      t.pending = rest ∧ t.responses = s.responses ∧ t.faultSeen = s.faultSeen

/-- R440, R441, ID9, ID10: with no action the core takes no step, and an overlapping command or a reset
during a command has none. -/
def Obligations.PortStopsWithoutAnAdmittedCommand : Prop :=
  ∀ (s : State) (w : Word64) (rest : List HostAction),
    (s.pending = [] → step s = .refused .noCommand) ∧
    (s.pending = .overlapped w :: rest → step s = .refused .overlappingCommand) ∧
    (s.pending = .resetDuring w :: rest → step s = .refused .resetDuringCommand)

/-- R54: the reset values of the architectural registers. -/
def Obligations.ResetStateHoldsTheResetValues : Prop :=
  State.reset.core.phase = 0 ∧ State.reset.core.alg = 0 ∧ State.reset.core.h = ⟨0, 0, 0, 0, 0⟩ ∧
  (∀ k, State.reset.core.buf.get k = 0) ∧ State.reset.core.total = 0 ∧
  (∀ k : Fin 20, State.reset.core.dg[k] = 0) ∧ State.reset.core.dlen = 0 ∧ State.reset.core.err = 0

/-! ### Session commands -/

/-- R350: NOP is exactly the all-zero word, and responds OK with 0 in every phase, changing no state; with
any other bit of `cmd[55:0]` set the word fails as illegal. -/
def Obligations.NopChangesNothing : Prop :=
  (∀ w : Word64, decode w = some .nop ↔ w = 0) ∧
  (∀ w : Word64, w.extractLsb' 56 8 = 0x00 → w.extractLsb' 0 56 ≠ 0 → FailsIllegal w) ∧
  ∀ s : State, s.core.phase ≠ 3 → exec .nop s = .next (answered s s.core 0)

/-- R351: START_A, in every phase, wipes everything, loads IV_A with H[4] = 0, and enters ABSORB under A;
issuing it twice leaves the state of issuing it once. With a bit of `cmd[55:0]` set the word fails as illegal. -/
def Obligations.StartAOpensASession : Prop :=
  (∀ w : Word64, decode w = some .startA ↔ w = 0x0100000000000000) ∧
  (∀ w : Word64, w.extractLsb' 56 8 = 0x01 → w.extractLsb' 0 56 ≠ 0 → FailsIllegal w) ∧
  ∀ s : State, s.core.phase ≠ 3 →
    ∃ t, exec .startA s = .next t ∧
      t = answered s
        { phase := 1, alg := 0, h := ⟨0x67452301, 0xefcdab89, 0x98badcfe, 0x10325476, 0⟩, buf := [],
          total := 0, dg := Vector.replicate 20 0, dlen := 0, err := 0 } 0 ∧
      t.core.stat = 0x00000001 ∧ exec .startA t = .next (answered t t.core 0)

/-- R352: START_B, in every phase, wipes everything, loads IV_B and enters ABSORB under B;
issuing it twice leaves the state of issuing it once. With a bit of `cmd[55:0]` set the word fails as illegal. -/
def Obligations.StartBOpensASession : Prop :=
  (∀ w : Word64, decode w = some .startB ↔ w = 0x0200000000000000) ∧
  (∀ w : Word64, w.extractLsb' 56 8 = 0x02 → w.extractLsb' 0 56 ≠ 0 → FailsIllegal w) ∧
  ∀ s : State, s.core.phase ≠ 3 →
    ∃ t, exec .startB s = .next t ∧
      t = answered s
        { phase := 1, alg := 1, h := ⟨0x67452301, 0xefcdab89, 0x98badcfe, 0x10325476, 0xc3d2e1f0⟩, buf := [],
          total := 0, dg := Vector.replicate 20 0, dlen := 0, err := 0 } 0 ∧
      t.core.stat = 0x00000005 ∧ exec .startB t = .next (answered t t.core 0)

/-- R353: WIPE, in every phase, zeroes every register; the core is then as after reset, and RDHEX 0 fails with
E_NOTREADY; it is idempotent. With a bit of `cmd[55:0]` set the word fails as illegal. -/
def Obligations.WipeLeavesTheResetState : Prop :=
  (∀ w : Word64, decode w = some .wipe ↔ w = 0x0300000000000000) ∧
  (∀ w : Word64, w.extractLsb' 56 8 = 0x03 → w.extractLsb' 0 56 ≠ 0 → FailsIllegal w) ∧
  ∀ s : State, s.core.phase ≠ 3 →
    ∃ t, exec .wipe s = .next t ∧
      t = answered s
        { phase := 0, alg := 0, h := ⟨0, 0, 0, 0, 0⟩, buf := [], total := 0,
          dg := Vector.replicate 20 0, dlen := 0, err := 0 } 0 ∧
      t.core = State.reset.core ∧ t.core.stat = 0 ∧ exec .wipe t = .next (answered t t.core 0) ∧
      exec (.rdhex 0) t = .next (failed t 0x04)

/-- R354, R355, R356: the three reads respond OK in every phase with STAT, TOTAL[31:0] and
TOTAL[63:32], changing no state (ERR included). -/
def Obligations.RegisterReadsReturnTheirRegister : Prop :=
  (∀ w : Word64, (decode w = some .rdstat ↔ w = 0x0400000000000000) ∧
    (decode w = some .rdcntl ↔ w = 0x0500000000000000) ∧ (decode w = some .rdcnth ↔ w = 0x0600000000000000)) ∧
  ∀ s : State, s.core.phase ≠ 3 →
    exec .rdstat s = .next (answered s s.core s.core.stat) ∧
    exec .rdcntl s = .next (answered s s.core (s.core.total.extractLsb' 0 32)) ∧
    exec .rdcnth s = .next (answered s s.core (s.core.total.extractLsb' 32 32))

/-- R46, R49: the fill is TOTAL mod 64, and STAT is the view the table and the formula of R49 give. -/
def Obligations.StatIsTheViewOfItsFields : Prop :=
  ∀ c : CoreState,
    c.fill = c.total.toNat % 64 ∧
    c.stat = c.phase.setWidth 32 ||| c.alg.setWidth 32 <<< 2 ||| (c.total.extractLsb' 0 6).setWidth 32 <<< 4 |||
      c.err.setWidth 32 <<< 16 ||| c.dlen.setWidth 32 <<< 24 ∧
    c.stat.extractLsb' 0 2 = c.phase ∧ c.stat.extractLsb' 2 1 = c.alg ∧ c.stat.extractLsb' 3 1 = 0 ∧
    (c.stat.extractLsb' 4 6).toNat = c.fill ∧ c.stat.extractLsb' 10 6 = 0 ∧ c.stat.extractLsb' 16 8 = c.err ∧
    c.stat.extractLsb' 24 6 = c.dlen ∧ c.stat.extractLsb' 30 2 = 0

/-- R90: a read command or NOP that succeeds leaves the core as it was and, issued again, gives the same
response again. -/
def Obligations.ReadsAreIdempotent : Prop :=
  ∀ (i : Instr) (s t : State) (d : Word),
    (i = .nop ∨ i = .rdstat ∨ i = .rdcntl ∨ i = .rdcnth ∨ IsDigestRead i) →
    exec i s = .next t → t.responses = ⟨0x00, d⟩ :: s.responses →
    t.core = s.core ∧ exec i t = .next (answered t t.core d)

/-! ### Errors -/

/-- R381: a command that fails with code e changes nothing but ERR, which takes e exactly if it was 0,
and returns `rsp(e, 0)`. -/
def Obligations.FailingCommandChangesOnlyErr : Prop :=
  ∀ (i : Instr) (s t : State) (r : Response),
    exec i s = .next t → t.responses = r :: s.responses → r.status ≠ 0x00 → t = failed s r.status

/-- R383, R384: FEEDn and FINISH fail with E_NOSESSION in IDLE and with E_MISUSE in DONE. -/
def Obligations.FeedAndFinishNeedASession : Prop :=
  ∀ (i : Instr) (s : State), NeedsSession i →
    (s.core.phase = 0 → exec i s = .next (failed s 0x02)) ∧
    (s.core.phase = 2 → exec i s = .next (failed s 0x03))

/-- R385, R386, R387: outside DONE a digest read fails with E_NOTREADY, whatever its index; in DONE it
fails with E_RANGE from the digest length on. -/
def Obligations.DigestReadsFailOutsideDoneOrRange : Prop :=
  ∀ (s : State) (j : Nat),
    (s.core.phase = 0 ∨ s.core.phase = 1 →
      exec (.rdhex j) s = .next (failed s 0x04) ∧ exec (.rdraw j) s = .next (failed s 0x04)) ∧
    (s.core.phase = 2 → s.core.dlen.toNat / 4 ≤ j → exec (.rdhex j) s = .next (failed s 0x05)) ∧
    (s.core.phase = 2 → s.core.dlen.toNat / 8 ≤ j → exec (.rdraw j) s = .next (failed s 0x05))

/-- R111, R380: every command returns exactly one response, with a code its row of R380 lists for it. -/
def Obligations.OnlyTheListedCodesAreReturned : Prop :=
  ∀ (i : Instr) (s t : State), exec i s = .next t →
    ∃ r, t.responses = r :: s.responses ∧
      (NeedsSession i → r.status = 0x00 ∨ r.status = 0x02 ∨ r.status = 0x03) ∧
      (IsDigestRead i → r.status = 0x00 ∨ r.status = 0x04 ∨ r.status = 0x05) ∧
      (¬ NeedsSession i → ¬ IsDigestRead i → r.status = 0x00)

/-- R48: after any step that runs a command word, ERR is 0 if the command was START_A, START_B or WIPE,
and otherwise the first nonzero of its old value and the code of the response. -/
def Obligations.ErrHoldsTheFirstCode : Prop :=
  ∀ (s t : State) (w : Word64) (rest : List HostAction) (r : Response),
    s.pending = .command w :: rest → step s = .next t → t.responses = r :: s.responses →
    (∀ i, decode w = some i → ClearsErr i → t.core.err = 0) ∧
    ((∀ i, decode w = some i → ¬ ClearsErr i) →
      t.core.err = if s.core.err = 0 then r.status else s.core.err)

/-- ID8: PHASE = 3 is stuck, no command is defined for that state. That this takes in the commands the rules
call legal in every phase, and that a word that decodes to nothing is stuck as well, is the model's choice
(log 6): ID8 speaks of commands, and R382 and R387 raise E_ILLEGAL in any phase, before any state is read. -/
def Obligations.UndefinedPhaseIsStuck : Prop :=
  ∀ (s : State) (w : Word64) (rest : List HostAction), s.core.phase = 3 →
    (∀ i, exec i s = .fault .phaseUndefined) ∧
    (s.pending = .command w :: rest → step s = .fault .phaseUndefined)

/-! ### The accumulator -/

/-- R150, R151, R153: FEED1 in ABSORB writes its byte at the fill, counts it, and compresses the block
exactly when the fill was 63; nothing else changes. -/
def Obligations.Feed1AbsorbsOneByte : Prop :=
  (∀ w : Word64, (∃ b, decode w = some (.feed1 b)) ↔ w &&& 0xFFFFFFFFFFFFFF00 = 0x1000000000000000) ∧
  (∀ (w : Word64) (b : Byte), decode w = some (.feed1 b) → b = w.extractLsb' 0 8) ∧
  ∀ (s : State) (b0 : Byte), s.core.phase = 1 →
    let f := s.core.fill
    let buf := s.core.buf.set f b0
    let blk := (List.range 64).map buf.get
    exec (.feed1 b0) s = .next (answered s
      { s.core with
        buf := buf
        total := s.core.total + 1
        h := if f = 63 then compress s.core.alg s.core.h blk else s.core.h } 0)

/-- R154, R155, R156: FEED2, FEED3 and FEED4 in ABSORB respond OK with 0 and leave the core that FEED1 of
their bytes, B0 first, would leave one after another. -/
def Obligations.LongerFeedsAreFeed1Repeated : Prop :=
  ∀ (s : State) (b0 b1 b2 b3 : Byte), s.core.phase = 1 →
    ∃ t1 t2 t3 t4,
      exec (.feed1 b0) s = .next t1 ∧ exec (.feed1 b1) t1 = .next t2 ∧
      exec (.feed1 b2) t2 = .next t3 ∧ exec (.feed1 b3) t3 = .next t4 ∧
      exec (.feed2 b0 b1) s = .next (answered s t2.core 0) ∧
      exec (.feed3 b0 b1 b2) s = .next (answered s t3.core 0) ∧
      exec (.feed4 b0 b1 b2 b3) s = .next (answered s t4.core 0)

/-- R113: the operand bytes of FEED2, FEED3 and FEED4 words, and which words they are. -/
def Obligations.FeedOperandsAreTheLowBytes : Prop :=
  ∀ (w : Word64) (b0 b1 b2 b3 : Byte),
    (decode w = some (.feed2 b0 b1) ↔ w = 0x1100000000000000 ||| b1.setWidth 64 <<< 8 ||| b0.setWidth 64) ∧
    (decode w = some (.feed3 b0 b1 b2) ↔
      w = 0x1200000000000000 ||| b2.setWidth 64 <<< 16 ||| b1.setWidth 64 <<< 8 ||| b0.setWidth 64) ∧
    (decode w = some (.feed4 b0 b1 b2 b3) ↔
      w = 0x1300000000000000 ||| b3.setWidth 64 <<< 24 ||| b2.setWidth 64 <<< 16 ||| b1.setWidth 64 <<< 8 |||
        b0.setWidth 64)

/-- R44, R45, R159: what a FEED of n bytes at fill f changes and leaves: TOTAL advances by n; the n bytes
land at (f + j) mod 64 and every other byte of BUF stays; H changes exactly when f + n reaches 64, then
to the compression of the one completed block; nothing else changes. -/
def Obligations.FeedFrame : Prop :=
  ∀ (i : Instr) (s : State), IsFeed i → s.core.phase = 1 → s.core.buf.wf = true →
    ∃ t, exec i s = .next t ∧
      (t.core.phase = s.core.phase ∧ t.core.alg = s.core.alg ∧ t.core.dg = s.core.dg ∧
        t.core.dlen = s.core.dlen ∧ t.core.err = s.core.err ∧ t.pending = s.pending ∧ t.faultSeen = s.faultSeen) ∧
      t.core.total = s.core.total + BitVec.ofNat 64 (fedBytes i).length ∧
      (∀ j, j < (fedBytes i).length → t.core.buf.get ((s.core.fill + j) % 64) = (fedBytes i).getD j 0) ∧
      (∀ a, (∀ j, j < (fedBytes i).length → a ≠ (s.core.fill + j) % 64) → t.core.buf.get a = s.core.buf.get a) ∧
      (s.core.fill + (fedBytes i).length < 64 → t.core.h = s.core.h) ∧
      (64 ≤ s.core.fill + (fedBytes i).length →
        t.core.h = compress s.core.alg s.core.h (s.core.validBytes ++ (fedBytes i).take (64 - s.core.fill))) ∧
      (s.core.alg = 0 → t.core.h.h4 = s.core.h.h4)

/-- R158: two sequences of FEED commands that feed the same bytes, from the same ABSORB state, complete
and leave the same core, so the same H, TOTAL and valid buffer bytes, and FINISH then latches the same digest. -/
def Obligations.StreamingEquivalence : Prop :=
  ∀ (is js : List Instr) (s : State), s.core.phase = 1 →
    (∀ i ∈ is, IsFeed i) → (∀ j ∈ js, IsFeed j) → is.flatMap fedBytes = js.flatMap fedBytes →
    ∃ t u t' u', execAll is s = .next t ∧ execAll js s = .next u ∧ t.core = u.core ∧
      exec .finish t = .next t' ∧ exec .finish u = .next u' ∧ t'.core.dg = u'.core.dg

/-- R152: the source's stride algorithm and the byte-serial Feed leave the same H, TOTAL and valid buffer
bytes, and the same of every other register. -/
def Obligations.SourceFeedAgreesWithFeed : Prop :=
  ∀ (c : CoreState) (bytes : List Byte), c.buf.wf = true →
    ∃ d e, feed bytes c = .ok d ∧ sourceFeed bytes c = .ok e ∧
      SameButStale d e

/-! ### The compression engines -/

/-- R192 to R195, R252 to R254: the round functions bit by bit: select by x, select by z, parity,
y against (x or not z); choice, parity, majority. -/
def Obligations.RoundFunctionsBitByBit : Prop :=
  ∀ (x y z : Word) (k : Nat), k < 32 →
    (fA0 x y z).getLsbD k = (if x.getLsbD k then y.getLsbD k else z.getLsbD k) ∧
    (fA1 x y z).getLsbD k = (if z.getLsbD k then x.getLsbD k else y.getLsbD k) ∧
    (fA2 x y z).getLsbD k = (x.getLsbD k ^^ y.getLsbD k ^^ z.getLsbD k) ∧
    (fA3 x y z).getLsbD k = (y.getLsbD k ^^ (x.getLsbD k || !z.getLsbD k)) ∧
    (fB0 x y z).getLsbD k = (if x.getLsbD k then y.getLsbD k else z.getLsbD k) ∧
    (fB1 x y z).getLsbD k = (x.getLsbD k ^^ y.getLsbD k ^^ z.getLsbD k) ∧
    (fB2 x y z).getLsbD k = (if x.getLsbD k = y.getLsbD k then x.getLsbD k else z.getLsbD k) ∧
    (fB3 x y z).getLsbD k = (x.getLsbD k ^^ y.getLsbD k ^^ z.getLsbD k)

/-- R198: each row of K_A is the closed form the rule gives as a cross-check, and a permutation of 0..15. -/
def Obligations.MessageIndexClosedForms : Prop :=
  (∀ j, j < 16 → indexA j = j ∧ indexA (16 + j) = (5 * j + 1) % 16 ∧ indexA (32 + j) = (3 * j + 5) % 16 ∧
    indexA (48 + j) = 7 * j % 16) ∧
  ∀ q, q < 4 → ((List.range 16).map fun j => indexA (16 * q + j)).Perm (List.range 16)

/-- R196, R197: S_A row by row, its four counts repeated four times in a group, every amount in 4..23; and the
64 round constants T_A. -/
def Obligations.RotationsAndConstantsOfA : Prop :=
  (List.range 4).map (fun q => (List.range 4).map fun j => rotA (16 * q + j)) =
    [[7, 12, 17, 22], [5, 9, 14, 20], [4, 11, 16, 23], [6, 10, 15, 21]] ∧
  (∀ q j k, q < 4 → j < 4 → k < 4 → rotA (16 * q + 4 * k + j) = rotA (16 * q + j)) ∧
  (∀ i, i < 64 → 4 ≤ rotA i ∧ rotA i ≤ 23) ∧
  (List.range 64).map constA =
    [0xd76aa478, 0xe8c7b756, 0x242070db, 0xc1bdceee, 0xf57c0faf, 0x4787c62a, 0xa8304613, 0xfd469501] ++
    [0x698098d8, 0x8b44f7af, 0xffff5bb1, 0x895cd7be, 0x6b901122, 0xfd987193, 0xa679438e, 0x49b40821] ++
    [0xf61e2562, 0xc040b340, 0x265e5a51, 0xe9b6c7aa, 0xd62f105d, 0x02441453, 0xd8a1e681, 0xe7d3fbc8] ++
    [0x21e1cde6, 0xc33707d6, 0xf4d50d87, 0x455a14ed, 0xa9e3e905, 0xfcefa3f8, 0x676f02d9, 0x8d2a4c8a] ++
    [0xfffa3942, 0x8771f681, 0x6d9d6122, 0xfde5380c, 0xa4beea44, 0x4bdecfa9, 0xf6bb4b60, 0xbebfbc70] ++
    [0x289b7ec6, 0xeaa127fa, 0xd4ef3085, 0x04881d05, 0xd9d4d039, 0xe6db99e5, 0x1fa27cf8, 0xc4ac5665] ++
    [0xf4292244, 0x432aff97, 0xab9423a7, 0xfc93a039, 0x655b59c3, 0x8f0ccc92, 0xffeff47d, 0x85845dd1] ++
    [0x6fa87e4f, 0xfe2ce6e0, 0xa3014314, 0x4e0811a1, 0xf7537e82, 0xbd3af235, 0x2ad7d2bb, 0xeb86d391]

/-- R199: StepA in 0..63 writes one new value, which becomes the new b: b plus the sum of a, the group's function of
b, c and d, the message word and the constant, rotated left; the other registers are renamed. With its example. -/
def Obligations.StepAWritesOneRegister : Prop :=
  (∀ (X : Nat → Word) (r : RegsA) (i : Nat), i < 64 →
    let f := if i < 16 then fA0 r.b r.c r.d else if i < 32 then fA1 r.b r.c r.d
      else if i < 48 then fA2 r.b r.c r.d else fA3 r.b r.c r.d
    (stepA X r i).b = r.b + (r.a + f + X (indexA i) + constA i).rotateLeft (rotA i) ∧
    (stepA X r i).a = r.d ∧ (stepA X r i).c = r.b ∧ (stepA X r i).d = r.c) ∧
  stepA (fun j => if j = 0 then 0x00000080 else 0) ivA 0 = ⟨0x10325476, 0xa5202774, 0xefcdab89, 0x98badcfe⟩

/-- R251, R255, R258: StepB in 0..79, the group's function and constant chosen by the step: a is rotated by 5 into
the new a, b by 30 into the new c, and the other registers shift one position. With its example. -/
def Obligations.StepBShiftsTheRegisters : Prop :=
  (∀ (W : List Word) (r : RegsB) (t : Nat), t < 80 →
    let f := if t < 20 then fB0 r.b r.c r.d else if t < 40 then fB1 r.b r.c r.d
      else if t < 60 then fB2 r.b r.c r.d else fB3 r.b r.c r.d
    let k : Word := if t < 20 then 0x5a827999 else if t < 40 then 0x6ed9eba1
      else if t < 60 then 0x8f1bbcdc else 0xca62c1d6
    (stepB W r t).a = r.a.rotateLeft 5 + f + r.e + k + W.getD t 0 ∧ (stepB W r t).b = r.a ∧
    (stepB W r t).c = r.b.rotateLeft 30 ∧ (stepB W r t).d = r.c ∧ (stepB W r t).e = r.d) ∧
  stepB [0x61626380] ⟨0x67452301, 0xefcdab89, 0x98badcfe, 0x10325476, 0xc3d2e1f0⟩ 0 =
    ⟨0x0116fc33, 0x67452301, 0x7bf36ae2, 0x98badcfe, 0x10325476⟩

/-- R256: the schedule has 80 words, the first 16 decoded big-endian, each later one the rotated XOR of
the words 3, 8, 14 and 16 back. -/
def Obligations.ScheduleFollowsItsRecurrence : Prop :=
  ∀ blk : List Byte, (scheduleB blk).length = 80 ∧
    (∀ t, t < 16 → (scheduleB blk).getD t 0 = be32 blk (4 * t)) ∧
    (∀ t, 16 ≤ t → t < 80 → (scheduleB blk).getD t 0 =
      rol ((scheduleB blk).getD (t - 3) 0 ^^^ (scheduleB blk).getD (t - 8) 0 ^^^
        (scheduleB blk).getD (t - 14) 0 ^^^ (scheduleB blk).getD (t - 16) 0) 1)

/-- R257: the 16-word circular buffer gives, step by step, the words of the 80-word schedule. -/
def Obligations.CircularBufferGivesTheSchedule : Prop :=
  ∀ blk : List Byte, circularWords (wordsB blk) 0 80 = scheduleB blk

/-- R43: under A a compression neither reads nor writes H[4]. -/
def Obligations.CompressionUnderALeavesH4 : Prop :=
  ∀ (h : StateWords) (blk : List Byte) (v : Word),
    (compress 0 h blk).h4 = h.h4 ∧ compress 0 { h with h4 := v } blk = { compress 0 h blk with h4 := v }

/-! ### The finalizer -/

/-- R300, R304: the padding is 0x80 and the least number of zeros that reaches 56 mod 64; with the length
field it fills the block at fill ≤ 55 and two blocks at fill ≥ 56. -/
def Obligations.PaddingEndsABlock : Prop :=
  ∀ (alg : BitVec 1) (f : Nat) (total : Word64), f < 64 →
    ∃ k, k < 64 ∧ padBytes f = 0x80 :: List.replicate k 0 ∧ (f + 1 + k) % 64 = 56 ∧
      padding alg f total = padBytes f ++ lengthField alg total ∧
      f + (padding alg f total).length = if f ≤ 55 then 64 else 128

/-- R301, R302: the length field is the 8 bytes of TOTAL × 8 mod 2^64, least significant first for A and
most significant first for B. -/
def Obligations.LengthFieldIsTheBitCount : Prop :=
  ∀ total : Word64,
    bitCount total = total * 8 ∧ bitCount total = total.extractLsb' 0 61 ++ (0 : BitVec 3) ∧
    (lengthField 0 total).length = 8 ∧ (lengthField 1 total).length = 8 ∧
    ∀ j, j < 8 → (lengthField 0 total).getD j 0 = (bitCount total).extractLsb' (8 * j) 8 ∧
      (lengthField 1 total).getD j 0 = (bitCount total).extractLsb' (56 - 8 * j) 8

/-- R307, R308: byte 4i + j of the latched digest is byte j of H[i], from the low end under A and from the
high end under B; under A the last four bytes are 0 (R47). -/
def Obligations.DigestBytesAreTheStateWords : Prop :=
  ∀ (h : StateWords) (j : Nat), j < 4 →
    (∀ i, i < 4 → (digestBytes 0 h).toList.getD (4 * i + j) 0 = (h.get i).extractLsb' (8 * j) 8) ∧
    (digestBytes 0 h).toList.getD (16 + j) 0 = 0 ∧
    (∀ i, i < 5 → (digestBytes 1 h).toList.getD (4 * i + j) 0 = (h.get i).extractLsb' (24 - 8 * j) 8)

/-- R309: HexDigit gives '0'..'9' for 0..9 and 'a'..'f' for 10..15, and no two values the same. -/
def Obligations.HexDigitsAreLowercase : Prop :=
  (∀ v : BitVec 4, v ≤ 9 → hexDigit v = 0x30 + v.setWidth 8) ∧
  (∀ v : BitVec 4, 9 < v → hexDigit v = 0x57 + v.setWidth 8) ∧
  (∀ v w : BitVec 4, hexDigit v = hexDigit w → v = w)

/-- R303, R311: FINISH in ABSORB compresses the valid bytes with their padding, latches the digest bytes of
the result, wipes H, BUF and TOTAL, enters DONE, and responds with the hex length; nothing else changes. -/
def Obligations.FinishLatchesTheDigestAndWipes : Prop :=
  (∀ w : Word64, decode w = some .finish ↔ w = 0x2000000000000000) ∧
  ∀ s : State, s.core.phase = 1 → s.core.buf.wf = true →
    let blocks := completeBlocks (s.core.validBytes ++ padding s.core.alg s.core.fill s.core.total)
    let words := compressBlocks s.core.alg s.core.h blocks
    blocks.flatten = s.core.validBytes ++ padding s.core.alg s.core.fill s.core.total ∧
    exec .finish s = .next (answered s
      { phase := 2, alg := s.core.alg, h := ⟨0, 0, 0, 0, 0⟩, buf := [], total := 0,
        dg := digestBytes s.core.alg words, dlen := if s.core.alg = 0 then 32 else 40, err := s.core.err }
      (if s.core.alg = 0 then 32 else 40))

/-- R305, R316: the digest FINISH latches is a function of the algorithm and the input bytes alone: the
digest of the whole string. -/
def Obligations.FinishGivesTheDigestOfTheInput : Prop :=
  ∀ (s : State) (alg : BitVec 1) (input : List Byte), Absorbed alg input s.core →
    ∃ t, exec .finish s = .next t ∧ t.core.dg = referenceDigest alg input ∧ t.core.dlen = hexLength alg ∧
      t.core.phase = 2 ∧ t.core.alg = alg

/-- R310, R313: RDHEX j in DONE, in range, responds with characters 4j to 4j+3 of the hex digest, the
lowest index in the low byte, and changes no state. -/
def Obligations.RdhexReturnsFourCharacters : Prop :=
  (∀ w : Word64, (∃ j, decode w = some (.rdhex j)) ↔ w &&& 0xFFFFFFFFFFFFFFF0 = 0x3000000000000000) ∧
  (∀ (w : Word64) (j : Nat), decode w = some (.rdhex j) → j = (w.extractLsb' 0 4).toNat) ∧
  ∀ (s : State) (j : Nat), s.core.phase = 2 → s.core.dlen = 32 ∨ s.core.dlen = 40 → j < s.core.dlen.toNat / 4 →
    ∃ d : Word, exec (.rdhex j) s = .next (answered s s.core d) ∧
      let b0 := s.core.dg.toList.getD (2 * j) 0
      let b1 := s.core.dg.toList.getD (2 * j + 1) 0
      d.extractLsb' 0 8 = hexDigit (b0.extractLsb' 4 4) ∧ d.extractLsb' 8 8 = hexDigit (b0.extractLsb' 0 4) ∧
      d.extractLsb' 16 8 = hexDigit (b1.extractLsb' 4 4) ∧ d.extractLsb' 24 8 = hexDigit (b1.extractLsb' 0 4)

/-- R314: RDRAW j in DONE, in range, responds with digest bytes 4j to 4j+3, byte 4j in the low byte, and
changes no state. -/
def Obligations.RdrawReturnsFourBytes : Prop :=
  (∀ w : Word64, (∃ j, decode w = some (.rdraw j)) ↔ w &&& 0xFFFFFFFFFFFFFFF0 = 0x3100000000000000) ∧
  (∀ (w : Word64) (j : Nat), decode w = some (.rdraw j) → j = (w.extractLsb' 0 4).toNat) ∧
  ∀ (s : State) (j : Nat), s.core.phase = 2 → s.core.dlen = 32 ∨ s.core.dlen = 40 → j < s.core.dlen.toNat / 8 →
    ∃ d : Word, exec (.rdraw j) s = .next (answered s s.core d) ∧
      ∀ k, k < 4 → d.extractLsb' (8 * k) 8 = s.core.dg.toList.getD (4 * j + k) 0

/-- R314: after a FINISH, RDRAW j is the final H[j] under A and its byte-reversal under B. -/
def Obligations.RdrawAfterFinishIsTheFinalWord : Prop :=
  ∀ (h : StateWords) (s : State) (j : Nat), s.core.phase = 2 → s.core.dlen = hexLength s.core.alg →
    s.core.dg = digestBytes s.core.alg h →
    (s.core.alg = 0 → j < 4 → exec (.rdraw j) s = .next (answered s s.core (h.get j))) ∧
    (s.core.alg = 1 → j < 5 → exec (.rdraw j) s = .next (answered s s.core
      ((h.get j).extractLsb' 0 8 ++ (h.get j).extractLsb' 8 8 ++ (h.get j).extractLsb' 16 8 ++
        (h.get j).extractLsb' 24 8)))

/-- R315: in DONE, DLEN is 32 under A and 40 under B, and RDHEX j succeeds for exactly 8 or 10 values of j. -/
def Obligations.DigestLengthInDone : Prop :=
  ∀ s : State, s.core.Inv → s.core.phase = 2 →
    s.core.dlen = (if s.core.alg = 0 then 32 else 40) ∧
    ∀ j, (∃ t d, exec (.rdhex j) s = .next t ∧ t.responses = ⟨0x00, d⟩ :: s.responses) ↔
      j < if s.core.alg = 0 then 8 else 10

/-! ### Invariants and whole-machine rules -/

/-- R53 holds at reset. -/
def Obligations.ResetMeetsTheInvariant : Prop := State.reset.Inv

/-- R53: every step from a state that meets the invariants, whatever the host's action, leaves a state
that meets them. -/
def Obligations.StepKeepsTheInvariant : Prop :=
  ∀ s t : State, s.Inv → step s = .next t → t.Inv

/-- R53 (i), (ii): a session just started has absorbed nothing. -/
def Obligations.StartBeginsAnEmptyHistory : Prop :=
  ∀ s : State, s.core.phase ≠ 3 →
    (∃ t, exec .startA s = .next t ∧ Absorbed 0 [] t.core) ∧ (∃ t, exec .startB s = .next t ∧ Absorbed 1 [] t.core)

/-- R53 (i), (ii): a FEED extends the history by exactly its bytes: the last `fill` input bytes stand in
BUF, and H is the initial words compressed with every complete block of the input so far. -/
def Obligations.FeedExtendsTheHistory : Prop :=
  ∀ (i : Instr) (s : State) (alg : BitVec 1) (input : List Byte), IsFeed i → Absorbed alg input s.core →
    ∃ t, exec i s = .next t ∧ Absorbed alg (input ++ fedBytes i) t.core

/-- R316, R381: every command but FEED, FINISH, START and WIPE, whether it succeeds or fails, and every
illegal word, leaves the history of the session as it was. -/
def Obligations.OtherCommandsKeepTheHistory : Prop :=
  ∀ (s : State) (alg : BitVec 1) (input : List Byte), Absorbed alg input s.core →
    (∀ i, ¬ NeedsSession i → ¬ ClearsErr i → ∃ t, exec i s = .next t ∧ Absorbed alg input t.core) ∧
    (∀ w rest, s.pending = .command w :: rest → decode w = none →
      ∃ t, step s = .next t ∧ Absorbed alg input t.core)

/-- R41: only START_A, START_B, FINISH, WIPE and reset write PHASE, and none of them writes 3. -/
def Obligations.OnlySessionCommandsMoveThePhase : Prop :=
  ∀ s t : State, step s = .next t →
    (t.core.phase ≠ s.core.phase →
      (∃ rest, s.pending = .reset :: rest) ∨
      ∃ w rest i, s.pending = .command w :: rest ∧ decode w = some i ∧ (ClearsErr i ∨ i = .finish)) ∧
    (s.core.phase ≠ 3 → t.core.phase ≠ 3)

/-- R43, R44, R91: no command but FINISH lets H or BUF into a response: from two machines that differ at
most in H and BUF, every other command gives the same response and leaves machines that again differ at most
in H and BUF, or stops both alike. -/
def Obligations.OnlyFinishRevealsHOrBuf : Prop :=
  ∀ (i : Instr) (s t : State) (h : StateWords) (buf : Memory), i ≠ .finish →
    t = { s with core := { s.core with h := h, buf := buf } } →
    (∃ s' t' h' buf', exec i s = .next s' ∧ exec i t = .next t' ∧ s'.responses = t'.responses ∧
      t' = { s' with core := { s'.core with h := h', buf := buf' } }) ∨
    (∃ f, exec i s = .fault f ∧ exec i t = .fault f)

/-- R44, ID3: buffer bytes at or beyond the fill are unobservable: machines that differ at most in them
step to machines that differ at most in them, with the same responses, or stop alike. -/
def Obligations.StaleBytesAreUnobservable : Prop :=
  ∀ s t : State, SameButStale s.core t.core → SamePort s t →
    (∃ s' t', step s = .next s' ∧ step t = .next t' ∧ SameButStale s'.core t'.core ∧ SamePort s' t') ∨
    (∃ f, step s = .fault f ∧ step t = .fault f) ∨ (∃ r, step s = .refused r ∧ step t = .refused r)

/-- R111, R445, R446: in a state that meets the invariants every command word is answered, by one response,
with data 0 when it fails; the core is never stuck on a command. -/
def Obligations.EveryCommandIsAnswered : Prop :=
  ∀ (s : State) (w : Word64) (rest : List HostAction), s.Inv → s.pending = .command w :: rest →
    ∃ t r, step s = .next t ∧ t.pending = rest ∧ t.responses = r :: s.responses ∧ r.status ≤ 0x05 ∧
      (r.status ≠ 0x00 → r.data = 0)

/-- R399: the model's fault bit is never cleared, and a step sets it exactly when a response carries an error. -/
def Obligations.FaultBitRecordsEveryError : Prop :=
  ∀ s t : State, step s = .next t →
    t.faultSeen = (s.faultSeen || (t.responses.take (t.responses.length - s.responses.length)).any
      fun r => r.status != 0x00)

/-- R396: a step of one instance changes no other instance, and is a step of that instance alone. -/
def Obligations.InstancesShareNothing : Prop :=
  ∀ (p q : Platform) (k : Nat), Platform.step k p = .next q →
    q.instances.length = p.instances.length ∧
    (∀ j, j ≠ k → q.instances[j]? = p.instances[j]?) ∧
    ∃ s t, p.instances[k]? = some s ∧ q.instances[k]? = some t ∧ Machine.step s = .next t

/-! ### The pseudo-instructions -/

/-- R119: the expansion of FEEDSTR s is FEED commands that feed exactly s: first ⌊L/4⌋ FEED4 commands over the
consecutive 4-byte slices of s, then, if L mod 4 > 0, one more over the last L mod 4 bytes; run in a session,
it adds s to the history. -/
def Obligations.FeedStrFeedsTheString : Prop :=
  ∀ s : List Byte,
    (∀ i ∈ feedStr s, IsFeed i) ∧ (feedStr s).flatMap fedBytes = s ∧
    (feedStr s).length = s.length / 4 + (if s.length % 4 = 0 then 0 else 1) ∧
    (∀ k, k < s.length / 4 → (feedStr s)[k]? =
      some (.feed4 (s.getD (4 * k) 0) (s.getD (4 * k + 1) 0) (s.getD (4 * k + 2) 0) (s.getD (4 * k + 3) 0))) ∧
    (s.length % 4 ≠ 0 → ∃ i, (feedStr s).getLast? = some i ∧ fedBytes i = s.drop (4 * (s.length / 4)) ∧
      (fedBytes i).length = s.length % 4) ∧
    ∀ (m : State) (alg : BitVec 1) (input : List Byte), Absorbed alg input m.core →
      ∃ t, execAll (feedStr s) m = .next t ∧ Absorbed alg (input ++ s) t.core

/-- R120, R306, R316: DIGEST alg, s, issued at the port in any phase, completes with every response OK; the
characters of its RDHEX responses, in order, are the hex digest of s; and the core is left wiped. -/
def Obligations.DigestPseudoInstructionReturnsTheHexDigest : Prop :=
  ∀ (alg : BitVec 1) (bytes : List Byte) (m : State) (rest : List HostAction), m.core.phase ≠ 3 →
    m.pending = issue (digestCommands alg bytes) ++ rest →
    ∃ (t : State) (before reads : List Response) (last : Response),
      (Host.Core.run Sys2Proof.core (digestCommands alg bytes).length m : Host.Outcome State Fault Refusal) = .next t ∧
      t.responses.reverse = m.responses.reverse ++ before ++ reads ++ [last] ∧
      before.length = (feedStr bytes).length + 2 ∧ reads.length = (if alg = 0 then 8 else 10) ∧
      (∀ r ∈ before ++ reads ++ [last], r.status = 0x00) ∧
      hexText reads = referenceHex alg bytes ∧ t.core = State.reset.core ∧ t.pending = rest
end

