-- ==== Sys2Proof/Laws/Blocks.lean ====
section
/-! SUPPORT. How a byte string splits into complete blocks and a tail, and how that split grows with the string. -/

namespace Sys2Proof.Machine

theorem completeBlocks_short {s : List Byte} (h : s.length < 64) : completeBlocks s = [] := by
  simp [completeBlocks, Nat.div_eq_of_lt h]

theorem tailBytes_short {s : List Byte} (h : s.length < 64) : tailBytes s = s := by
  simp [tailBytes, Nat.div_eq_of_lt h]

theorem completeBlocks_cons_block {x : List Byte} (hx : x.length = 64) (s : List Byte) :
    completeBlocks (x ++ s) = x :: completeBlocks s := by
  have hl : (x ++ s).length / 64 = s.length / 64 + 1 := by simp [hx]
  unfold completeBlocks
  rw [hl, List.range_succ_eq_map, List.map_cons, List.map_map]
  congr 1
  · simp [hx]
  · refine List.map_congr_left fun k _ => ?_
    have : 64 * (k + 1) = x.length + 64 * k := by omega
    simp only [Function.comp, this, Nat.succ_eq_add_one]
    rw [List.drop_append, List.drop_eq_nil_of_le (Nat.le_add_right _ _)]
    simp

theorem tailBytes_cons_block {x : List Byte} (hx : x.length = 64) (s : List Byte) :
    tailBytes (x ++ s) = tailBytes s := by
  have hl : (x ++ s).length / 64 = s.length / 64 + 1 := by simp [hx]
  unfold tailBytes
  have : 64 * (s.length / 64 + 1) = x.length + 64 * (s.length / 64) := by omega
  rw [hl, this, List.drop_append]
  simp

theorem tailBytes_length (s : List Byte) : (tailBytes s).length = s.length % 64 := by
  simp [tailBytes]; omega

/-- Every string is a whole number of blocks, then its tail. -/
theorem block_cases (s : List Byte) :
    s.length < 64 ∨ ∃ x r, x.length = 64 ∧ s = x ++ r := by
  by_cases h : s.length < 64
  · exact .inl h
  · exact .inr ⟨s.take 64, s.drop 64, by simp; omega, (List.take_append_drop 64 s).symm⟩

theorem completeBlocks_append (s t : List Byte) :
    completeBlocks (s ++ t) = completeBlocks s ++ completeBlocks (tailBytes s ++ t) := by
  induction hn : s.length using Nat.strongRecOn generalizing s with
  | _ n ih =>
    rcases block_cases s with h | ⟨x, r, hx, rfl⟩
    · rw [completeBlocks_short h, tailBytes_short h]; rfl
    · have hr : r.length < n := by simp [hx] at hn; omega
      rw [List.append_assoc, completeBlocks_cons_block hx, completeBlocks_cons_block hx,
        tailBytes_cons_block hx, ih _ hr r rfl]
      rfl

theorem tailBytes_append (s t : List Byte) : tailBytes (s ++ t) = tailBytes (tailBytes s ++ t) := by
  induction hn : s.length using Nat.strongRecOn generalizing s with
  | _ n ih =>
    rcases block_cases s with h | ⟨x, r, hx, rfl⟩
    · rw [tailBytes_short h]
    · have hr : r.length < n := by simp [hx] at hn; omega
      rw [List.append_assoc, tailBytes_cons_block hx, tailBytes_cons_block hx, ih _ hr r rfl]

/-- The blocks and the tail make up the string. -/
theorem completeBlocks_flatten (s : List Byte) : (completeBlocks s).flatten ++ tailBytes s = s := by
  induction hn : s.length using Nat.strongRecOn generalizing s with
  | _ n ih =>
    rcases block_cases s with h | ⟨x, r, hx, rfl⟩
    · rw [completeBlocks_short h, tailBytes_short h]; rfl
    · have hr : r.length < n := by simp [hx] at hn; omega
      rw [completeBlocks_cons_block hx, tailBytes_cons_block hx, List.flatten_cons, List.append_assoc,
        ih _ hr r rfl]

@[simp] theorem compressBlocks_nil (alg : BitVec 1) (h : StateWords) : compressBlocks alg h [] = h := rfl

@[simp] theorem compressBlocks_cons (alg : BitVec 1) (h : StateWords) (x : List Byte) (xs : List (List Byte)) :
    compressBlocks alg h (x :: xs) = compressBlocks alg (compress alg h x) xs := rfl

theorem compressBlocks_append (alg : BitVec 1) (h : StateWords) (xs ys : List (List Byte)) :
    compressBlocks alg h (xs ++ ys) = compressBlocks alg (compressBlocks alg h xs) ys :=
  List.foldl_append

end Sys2Proof.Machine
end

