-- ==== Sys2Proof/Laws/Memory.lean ====
section
/-! SUPPORT. The laws of the staging buffer: a read after a write, and that every operation keeps the canonical form. -/

namespace Sys2Proof.Machine

@[simp] theorem Memory.get_nil (k : Nat) : Memory.get [] k = 0 := rfl

@[simp] theorem Memory.wf_nil : Memory.wf [] = true := rfl

theorem Memory.wfFrom_cons {lo a : Nat} {x : Byte} {m : Memory} :
    Memory.wfFrom lo ((a, x) :: m) = true ↔ lo ≤ a ∧ a < 64 ∧ x ≠ 0 ∧ Memory.wfFrom (a + 1) m = true := by
  simp [Memory.wfFrom, and_assoc]

theorem Memory.wfFrom_mono {lo hi : Nat} {m : Memory} (h : lo ≤ hi) (hm : Memory.wfFrom hi m = true) :
    Memory.wfFrom lo m = true := by
  cases m with
  | nil => rfl
  | cons p m =>
    obtain ⟨ha, hb, hx, hr⟩ := Memory.wfFrom_cons.1 hm
    exact Memory.wfFrom_cons.2 ⟨by omega, hb, hx, hr⟩

/-- Below its lower bound a canonical buffer reads as 0. -/
theorem Memory.get_below {m : Memory} : ∀ {lo k : Nat}, Memory.wfFrom lo m = true → k < lo → m.get k = 0 := by
  induction m with
  | nil => intros; rfl
  | cons p m ih =>
    intro lo k hm hk
    obtain ⟨ha, hb, hx, hr⟩ := Memory.wfFrom_cons.1 hm
    simp only [Memory.get]
    rw [if_neg (by omega)]
    exact ih hr (by omega)

theorem Memory.set_wfFrom {m : Memory} : ∀ {lo k : Nat} {b : Byte}, Memory.wfFrom lo m = true → lo ≤ k → k < 64 →
    Memory.wfFrom lo (m.set k b) = true := by
  induction m with
  | nil =>
    intro lo k b _ hk h64
    simp only [Memory.set]
    split
    · rfl
    · exact Memory.wfFrom_cons.2 ⟨hk, h64, ‹_›, rfl⟩
  | cons p m ih =>
    intro lo k b hm hk h64
    obtain ⟨ha, hb, hx, hr⟩ := Memory.wfFrom_cons.1 hm
    simp only [Memory.set]
    split
    · split
      · exact hm
      · exact Memory.wfFrom_cons.2 ⟨hk, h64, ‹_›, Memory.wfFrom_cons.2 ⟨by omega, hb, hx, hr⟩⟩
    · split
      · split
        · exact Memory.wfFrom_mono (by omega) hr
        · exact Memory.wfFrom_cons.2 ⟨hk, h64, ‹_›, by subst_vars; exact hr⟩
      · exact Memory.wfFrom_cons.2 ⟨ha, hb, hx, ih hr (by omega) h64⟩

/-- A write inside the buffer keeps the canonical form. -/
theorem Memory.set_wf {m : Memory} {k : Nat} {b : Byte} (hm : m.wf = true) (hk : k < 64) : (m.set k b).wf = true :=
  Memory.set_wfFrom hm (Nat.zero_le _) hk

theorem Memory.get_set_from {m : Memory} : ∀ {lo k : Nat} {b : Byte} (j : Nat), Memory.wfFrom lo m = true →
    (m.set k b).get j = if j = k then b else m.get j := by
  induction m with
  | nil =>
    intro lo k b j _
    simp only [Memory.set]
    by_cases hb : b = 0
    · rw [if_pos hb]
      split <;> simp_all
    · rw [if_neg hb]
      simp only [Memory.get, eq_comm]
  | cons p m ih =>
    intro lo k b j hm
    obtain ⟨a, x⟩ := p
    obtain ⟨ha, h64, hx, hr⟩ := Memory.wfFrom_cons.1 hm
    simp only [Memory.set]
    by_cases hka : k < a
    · rw [if_pos hka]
      have hget : Memory.get ((a, x) :: m) k = 0 :=
        Memory.get_below (lo := a) (Memory.wfFrom_cons.2 ⟨Nat.le_refl _, h64, hx, hr⟩) hka
      by_cases hb : b = 0
      · rw [if_pos hb]
        split
        · subst_vars; exact hget
        · rfl
      · rw [if_neg hb]
        by_cases hj : j = k
        · simp [Memory.get, hj]
        · simp [Memory.get, hj, Ne.symm hj]
    · rw [if_neg hka]
      by_cases hk : k = a
      · rw [if_pos hk]
        subst hk
        by_cases hb : b = 0
        · rw [if_pos hb]
          by_cases hj : j = k
          · rw [if_pos hj, hj, hb]; exact Memory.get_below hr (by omega)
          · rw [if_neg hj]; simp [Memory.get, Ne.symm hj]
        · rw [if_neg hb]
          by_cases hj : j = k
          · simp [Memory.get, hj]
          · simp [Memory.get, hj, Ne.symm hj]
      · rw [if_neg hk]
        simp only [Memory.get]
        rw [ih j hr]
        by_cases hj : a = j
        · rw [if_pos hj, if_neg (by omega), if_pos hj]
        · rw [if_neg hj, if_neg hj]

/-- Read after write: the written byte at its offset, the old byte elsewhere. -/
theorem Memory.get_set {m : Memory} (hm : m.wf = true) (k : Nat) (b : Byte) (j : Nat) :
    (m.set k b).get j = if j = k then b else m.get j :=
  Memory.get_set_from j hm

/-- Writing bytes inside the buffer keeps the canonical form. -/
theorem Memory.setAll_wf {s : List Byte} : ∀ {m : Memory} {k : Nat}, m.wf = true → k + s.length ≤ 64 →
    (m.setAll k s).wf = true := by
  induction s with
  | nil => intro m k hm _; exact hm
  | cons b s ih =>
    intro m k hm hk
    simp only [List.length_cons] at hk
    exact ih (Memory.set_wf hm (by omega)) (by omega)

/-- Read after a write of several bytes. -/
theorem Memory.get_setAll {s : List Byte} : ∀ {m : Memory} {k : Nat}, m.wf = true → k + s.length ≤ 64 → ∀ j,
    (m.setAll k s).get j = if k ≤ j ∧ j < k + s.length then s.getD (j - k) 0 else m.get j := by
  induction s with
  | nil => intro m k _ _ j; simp [Memory.setAll]
  | cons b s ih =>
    intro m k hm hk j
    simp only [List.length_cons] at hk
    simp only [Memory.setAll]
    rw [ih (Memory.set_wf hm (by omega)) (by omega) j, Memory.get_set hm]
    by_cases h1 : k + 1 ≤ j ∧ j < k + 1 + s.length
    · rw [if_pos h1, if_pos (by simp only [List.length_cons]; omega)]
      obtain ⟨n, rfl⟩ : ∃ n, j = k + 1 + n := ⟨j - (k + 1), by omega⟩
      have e1 : k + 1 + n - (k + 1) = n := by omega
      have e2 : k + 1 + n - k = n + 1 := by omega
      rw [e1, e2, List.getD_cons_succ]
    · rw [if_neg h1]
      by_cases h2 : j = k
      · subst h2
        rw [if_pos rfl, if_pos (by simp only [List.length_cons]; omega)]
        simp
      · rw [if_neg h2, if_neg (by simp only [List.length_cons]; omega)]

/-- The first p + n bytes of the buffer after n bytes are written at p. -/
theorem range_get_setAll {m : Memory} (hm : m.wf = true) (p : Nat) (s : List Byte) (h : p + s.length ≤ 64) :
    (List.range (p + s.length)).map (m.setAll p s).get = (List.range p).map m.get ++ s := by
  apply List.ext_getElem
  · simp
  · intro k h1 h2
    simp at h1
    simp only [List.getElem_map, List.getElem_range]
    rw [Memory.get_setAll hm h]
    by_cases hk : k < p
    · rw [if_neg (by omega), List.getElem_append_left (by simpa using hk)]; simp
    · rw [if_pos (by omega), List.getElem_append_right (by simpa using hk)]
      simp [List.getD_eq_getElem?_getD]
      rw [List.getElem?_eq_getElem (by omega)]; rfl

/-- MemWrite of one byte inside the buffer (R80). -/
theorem memWrite_one {k : Nat} (b : Byte) (m : Memory) (hk : k < 64) : memWrite k [b] m = .ok (m.set k b) := by
  simp [memWrite, Memory.setAll]; omega

/-- MemWrite inside its precondition (R80). -/
theorem memWrite_ok {k : Nat} {s : List Byte} (m : Memory) (hs : 1 ≤ s.length) (hk : k + s.length ≤ 64) :
    memWrite k s m = .ok (m.setAll k s) := by
  exact if_pos ⟨hs, hk⟩

/-- MemRead of the whole buffer (R80). -/
theorem memRead_block (m : Memory) : memRead 0 64 m = .ok ((List.range 64).map m.get) := by
  simp [memRead]

/-- A successful MemWrite keeps the canonical form. -/
theorem memWrite_wf {k : Nat} {s : List Byte} {m m' : Memory} (hm : m.wf = true) (h : memWrite k s m = .ok m') :
    m'.wf = true := by
  unfold memWrite at h
  split at h
  · rename_i hp
    cases h
    exact Memory.setAll_wf hm hp.2
  · cases h

end Sys2Proof.Machine
end

