-- ==== Sys2Proof/Laws/Accumulator.lean ====
section
/-! SUPPORT. What absorbing bytes does: the accumulator never faults inside the buffer, and its buffer and state words are the tail and the compressed blocks of the bytes it has seen. -/

namespace Sys2Proof.Machine

/-- R46: the fill is TOTAL mod 64. -/
theorem fill_eq (c : CoreState) : c.fill = c.total.toNat % 64 := by
  simp [CoreState.fill, CoreState.fillBits]

theorem fill_lt (c : CoreState) : c.fill < 64 := by rw [fill_eq]; omega

theorem fill_of_total {c : CoreState} {n : Nat} (h : c.total = BitVec.ofNat 64 n) : c.fill = n % 64 := by
  rw [fill_eq, h]; simp

theorem fill_add {c d : CoreState} (n : Nat) (h : d.total = c.total + BitVec.ofNat 64 n) :
    d.fill = (c.fill + n) % 64 := by
  rw [fill_eq, fill_eq, h]; simp

/-- The core after AbsorbByte at position p < 64 (R150). -/
def absorbedCore (p : Nat) (b : Byte) (c : CoreState) : CoreState :=
  { c with
    buf := c.buf.set p b
    h := if p = 63 then compress c.alg c.h ((List.range 64).map (c.buf.set p b).get) else c.h }

/-- AbsorbByte inside the buffer never faults (R80, R150). -/
theorem absorbByte_eq {p : Nat} (hp : p < 64) (b : Byte) (c : CoreState) :
    absorbByte p b c = .ok (absorbedCore p b c, (p + 1) % 64) := by
  unfold absorbByte
  rw [memWrite_one b c.buf hp]
  by_cases h : p = 63
  · subst h
    simp only [bind, Except.bind, pure, Except.pure, if_true, memRead_block, absorbedCore]
  · have hm : (p + 1) % 64 = p + 1 := Nat.mod_eq_of_lt (by omega)
    simp only [bind, Except.bind, pure, Except.pure, if_neg h, absorbedCore, hm]

/-- The core after absorbing bytes from position p (R303's loop). -/
def absorbedAll : List Byte → Nat → CoreState → CoreState
  | [], _, c => c
  | b :: s, p, c => absorbedAll s ((p + 1) % 64) (absorbedCore p b c)

theorem absorbAll_eq {s : List Byte} : ∀ {p : Nat} (c : CoreState), p < 64 →
    absorbAll s p c = .ok (absorbedAll s p c, (p + s.length) % 64) := by
  induction s with
  | nil => intro p c hp; simp [absorbAll, absorbedAll, Nat.mod_eq_of_lt hp]
  | cons b s ih =>
    intro p c hp
    unfold absorbAll
    rw [absorbByte_eq hp]
    simp only [bind, Except.bind]
    rw [ih _ (Nat.mod_lt _ (by omega))]
    simp only [absorbedAll, List.length_cons]
    congr 2
    omega

theorem absorbedAll_append (s t : List Byte) : ∀ (p : Nat) (c : CoreState), p < 64 →
    absorbedAll (s ++ t) p c = absorbedAll t ((p + s.length) % 64) (absorbedAll s p c) := by
  induction s with
  | nil => intro p c hp; simp [absorbedAll, Nat.mod_eq_of_lt hp]
  | cons b s ih =>
    intro p c hp
    simp only [List.cons_append, absorbedAll, List.length_cons]
    rw [ih _ _ (Nat.mod_lt _ (by omega))]
    congr 1
    omega

/-- What absorbing leaves alone: every register but BUF and H. -/
theorem absorbedAll_rest (s : List Byte) : ∀ (p : Nat) (c : CoreState),
    absorbedAll s p c = { c with buf := (absorbedAll s p c).buf, h := (absorbedAll s p c).h } := by
  induction s with
  | nil => intros; rfl
  | cons b s ih => intro p c; simp only [absorbedAll]; rw [ih]; rfl

@[simp] theorem absorbedAll_total (s : List Byte) (p : Nat) (c : CoreState) : (absorbedAll s p c).total = c.total := by
  rw [absorbedAll_rest]

@[simp] theorem absorbedAll_alg (s : List Byte) (p : Nat) (c : CoreState) : (absorbedAll s p c).alg = c.alg := by
  rw [absorbedAll_rest]

@[simp] theorem absorbedAll_phase (s : List Byte) (p : Nat) (c : CoreState) : (absorbedAll s p c).phase = c.phase := by
  rw [absorbedAll_rest]

/-- The bytes absorbed do not depend on the counter. -/
theorem absorbedAll_withTotal (s : List Byte) (t : Word64) : ∀ (p : Nat) (c : CoreState),
    absorbedAll s p { c with total := t } = { absorbedAll s p c with total := t } := by
  induction s with
  | nil => intros; rfl
  | cons b s ih =>
    intro p c
    simp only [absorbedAll]
    rw [← ih]
    rfl

/-- The first p bytes of the buffer, after the byte at p is written. -/
theorem range_get_set {m : Memory} (hm : m.wf = true) (p : Nat) (b : Byte) :
    (List.range (p + 1)).map (m.set p b).get = (List.range p).map m.get ++ [b] := by
  rw [List.range_succ, List.map_append]
  congr 1
  · refine List.map_congr_left fun k hk => ?_
    rw [Memory.get_set hm, if_neg (by have := List.mem_range.1 hk; omega)]
  · simp [Memory.get_set hm]

/-- Absorbing s after the valid bytes v: H is compressed with the complete blocks of v ++ s, and the
tail of v ++ s stands at the start of the buffer (R150, R53). -/
theorem absorbedAll_stream {s : List Byte} : ∀ {p : Nat} {c : CoreState}, p < 64 → c.buf.wf = true →
    (absorbedAll s p c).buf.wf = true ∧
    (absorbedAll s p c).h = compressBlocks c.alg c.h (completeBlocks ((List.range p).map c.buf.get ++ s)) ∧
    (List.range ((p + s.length) % 64)).map (absorbedAll s p c).buf.get =
      tailBytes ((List.range p).map c.buf.get ++ s) := by
  induction s with
  | nil =>
    intro p c hp hm
    have hl : ((List.range p).map c.buf.get).length < 64 := by simpa using hp
    simp only [absorbedAll, List.append_nil, List.length_nil, Nat.add_zero, Nat.mod_eq_of_lt hp,
      completeBlocks_short hl, tailBytes_short hl, compressBlocks_nil]
    exact ⟨hm, trivial, trivial⟩
  | cons b s ih =>
    intro p c hp hm
    have hm' : (absorbedCore p b c).buf.wf = true := Memory.set_wf hm hp
    have hlen : (p + (b :: s).length) % 64 = ((p + 1) % 64 + s.length) % 64 := by
      simp only [List.length_cons]; omega
    obtain ⟨hw, hh, ht⟩ := ih (Nat.mod_lt (p + 1) (by omega : 64 > 0)) hm'
    have hv := range_get_set hm p b
    have hsplit : (List.range p).map c.buf.get ++ b :: s = ((List.range (p + 1)).map (c.buf.set p b).get) ++ s := by
      rw [hv]; simp
    refine ⟨hw, ?_, ?_⟩
    · simp only [absorbedAll]
      rw [hh, hsplit]
      by_cases h63 : p = 63
      · subst h63
        rw [completeBlocks_cons_block (x := (List.range 64).map (c.buf.set 63 b).get) (by simp)]
        simp [absorbedCore]
      · have : (p + 1) % 64 = p + 1 := Nat.mod_eq_of_lt (by omega)
        rw [this]
        simp only [absorbedCore, if_neg h63]
    · simp only [absorbedAll]
      rw [hlen, ht, hsplit]
      by_cases h63 : p = 63
      · subst h63
        rw [tailBytes_cons_block (x := (List.range 64).map (c.buf.set 63 b).get) (by simp)]
        simp [absorbedCore]
      · have : (p + 1) % 64 = p + 1 := Nat.mod_eq_of_lt (by omega)
        rw [this]
        simp only [absorbedCore]

/-- The core after Feed (R151): the bytes absorbed at the fill, TOTAL advanced by their number. -/
theorem feed_eq {s : List Byte} : ∀ (c : CoreState),
    feed s c = .ok { absorbedAll s c.fill c with total := c.total + BitVec.ofNat 64 s.length } := by
  induction s with
  | nil => intro c; simp [feed, absorbedAll]
  | cons b s ih =>
    intro c
    unfold feed
    rw [absorbByte_eq (fill_lt c)]
    simp only [bind, Except.bind]
    rw [ih]
    have hf : ({ absorbedCore c.fill b c with total := (absorbedCore c.fill b c).total + 1 } : CoreState).fill = (c.fill + 1) % 64 :=
      fill_add 1 rfl
    rw [hf, absorbedAll_withTotal]
    simp only [absorbedAll, List.length_cons]
    have ht : c.total + 1 + BitVec.ofNat 64 s.length = c.total + BitVec.ofNat 64 (s.length + 1) := by
      apply BitVec.eq_of_toNat_eq
      simp
      omega
    exact congrArg Except.ok (congrArg (fun t => { absorbedAll s ((c.fill + 1) % 64) (absorbedCore c.fill b c) with total := t }) ht)

/-- Feed of two strings in a row is Feed of their concatenation (R158). -/
theorem feed_append (s t : List Byte) : ∀ c : CoreState, feed (s ++ t) c = feed s c >>= feed t := by
  induction s with
  | nil => intro c; rfl
  | cons b s ih =>
    intro c
    simp only [List.cons_append, feed]
    cases absorbByte c.fill b c with
    | error f => rfl
    | ok r => simp only [bind, Except.bind] at ih ⊢; exact ih _

/-- Where absorbed bytes land, and that every other offset keeps its byte (R44, R150). -/
theorem absorbedAll_get {s : List Byte} : ∀ {p : Nat} {c : CoreState}, p < 64 → s.length ≤ 64 → c.buf.wf = true → 
    (∀ j, j < s.length → (absorbedAll s p c).buf.get ((p + j) % 64) = s.getD j 0) ∧
    (∀ a, (∀ j, j < s.length → a ≠ (p + j) % 64) → (absorbedAll s p c).buf.get a = c.buf.get a) := by
  induction s with
  | nil => intro p c _ _ _; simp [absorbedAll]
  | cons b s ih =>
    intro p c hp hl hm
    simp only [List.length_cons] at hl
    obtain ⟨h1, h2⟩ := ih (p := (p+1)%64) (c := absorbedCore p b c) (Nat.mod_lt _ (by omega)) (by omega) (Memory.set_wf hm hp)
    simp only [absorbedAll]
    constructor
    · intro j hj
      cases j with
      | zero =>
        rw [h2 _ (fun j hj => by omega)]
        simp only [absorbedCore]
        rw [Memory.get_set hm, if_pos (by omega)]; rfl
      | succ j =>
        simp only [List.length_cons] at hj
        rw [List.getD_cons_succ, ← h1 j (by omega)]
        congr 1; omega
    · intro a ha
      rw [h2 a (fun j hj => by have := ha (j+1) (by simpa using hj); omega)]
      simp only [absorbedCore]
      rw [Memory.get_set hm, if_neg (by have := ha 0 (by simp); omega)]

/-- Under A a compression leaves H[4] (R43). -/
theorem compress_A_h4 (h : StateWords) (blk : List Byte) : (compress 0 h blk).h4 = h.h4 := by
  simp [compress, StateWords.withRegsA]

/-- Under A absorbing leaves H[4] (R43). -/
theorem absorbedAll_h4 (s : List Byte) : ∀ (p : Nat) (c : CoreState), c.alg = 0 → (absorbedAll s p c).h.h4 = c.h.h4 := by
  induction s with
  | nil => intros; rfl
  | cons b s ih =>
    intro p c ha
    simp only [absorbedAll]
    rw [ih _ _ (by simpa [absorbedCore] using ha)]
    simp only [absorbedCore]
    split
    · rw [ha, compress_A_h4]
    · rfl


/-- Pad (R303) never faults; TOTAL stays. -/
theorem pad_eq (c : CoreState) :
    pad c = .ok (absorbedAll (padding c.alg c.fill c.total) c.fill c) := by
  unfold pad
  rw [absorbAll_eq _ (fill_lt c)]
  rfl

end Sys2Proof.Machine
end

