-- ==== Sys2Proof/Laws/Decode.lean ====
section
/-! SUPPORT. The opcode map as intervals: each row spells exactly the words from its pattern up to its operand bits, so decoding and encoding can be read as arithmetic on the word's number. -/

namespace Sys2Proof

/-- A word agrees with a pattern above bit k exactly when it lies in the 2^k words from the pattern on. -/
theorem and_shifted_ones_eq (w p : Word64) (k : Nat) (hp : p.toNat % 2 ^ k = 0) :
    (w &&& (BitVec.allOnes 64 <<< k) = p) ↔ p.toNat ≤ w.toNat ∧ w.toNat < p.toNat + 2 ^ k := by
  have hand : (w &&& (BitVec.allOnes 64 <<< k)) = (w >>> k) <<< k := by
    ext i hi
    simp only [BitVec.getElem_and, BitVec.getElem_shiftLeft, BitVec.getElem_allOnes]
    by_cases h : i < k
    · simp [h]
    · have : k + (i - k) = i := by omega
      simp [h, this, BitVec.getLsbD_eq_getElem hi]
  have hnat : ((w >>> k) <<< k).toNat = w.toNat / 2 ^ k * 2 ^ k := by
    rw [BitVec.toNat_shiftLeft, BitVec.toNat_ushiftRight, Nat.shiftLeft_eq, Nat.shiftRight_eq_div_pow]
    exact Nat.mod_eq_of_lt (Nat.lt_of_le_of_lt (Nat.div_mul_le_self _ _) w.isLt)
  have h2 : 0 < 2 ^ k := Nat.two_pow_pos k
  have hd := Nat.div_add_mod p.toNat (2 ^ k)
  have hw := Nat.div_add_mod w.toNat (2 ^ k)
  have hlt := Nat.mod_lt w.toNat h2
  rw [hand]
  constructor
  · intro h
    have h := congrArg BitVec.toNat h
    rw [hnat] at h
    rw [Nat.mul_comm] at hw
    omega
  · rintro ⟨h1, h3⟩
    apply BitVec.eq_of_toNat_eq
    rw [hnat]
    have : w.toNat / 2 ^ k = p.toNat / 2 ^ k := by
      have hpk : p.toNat = 2 ^ k * (p.toNat / 2 ^ k) := by omega
      apply Nat.div_eq_of_lt_le
      · rw [Nat.mul_comm]; omega
      · rw [Nat.succ_mul, Nat.mul_comm]; omega
    rw [this, Nat.mul_comm]; omega

theorem spells_iff (r : Row) (k : Nat) (hm : r.mask = BitVec.allOnes 64 <<< k)
    (hp : r.pattern.toNat % 2 ^ k = 0) (w : Word64) :
    r.spells w = true ↔ r.pattern.toNat ≤ w.toNat ∧ w.toNat < r.pattern.toNat + 2 ^ k := by
  rw [Row.spells, beq_iff_eq, hm]
  exact and_shifted_ones_eq w r.pattern k hp

theorem find_row (r : Row) (rs : List Row) (w : Word64) :
    ((r :: rs).find? fun r => r.spells w).map (fun r => r.read w) =
      if r.spells w = true then some (r.read w) else (rs.find? fun r => r.spells w).map fun r => r.read w := by
  cases h : r.spells w <;> simp [List.find?, h]

/-- A row with every bit fixed spells its pattern only. -/
theorem find_row_exact (m : Mnemonic) (pat : Word64) (read : Word64 → Instr) (rs : List Row) (w : Word64) :
    (((⟨m, pat, 0xFFFFFFFFFFFFFFFF, read⟩ : Row) :: rs).find? fun r => r.spells w).map (fun r => r.read w) =
      if w.toNat = pat.toNat then some (read w) else (rs.find? fun r => r.spells w).map fun r => r.read w := by
  rw [find_row]
  refine if_congr ?_ rfl rfl
  rw [spells_iff _ 0 (by rfl) (by omega)]
  show pat.toNat ≤ w.toNat ∧ w.toNat < pat.toNat + 2 ^ 0 ↔ _
  omega

/-- A row with k operand bits spells the 2^k words from its pattern on. -/
theorem find_row_upto (k : Nat) (m : Mnemonic) (pat mask : Word64) (read : Word64 → Instr) (rs : List Row)
    (w : Word64) (hm : mask = BitVec.allOnes 64 <<< k) (hp : pat.toNat % 2 ^ k = 0) :
    (((⟨m, pat, mask, read⟩ : Row) :: rs).find? fun r => r.spells w).map (fun r => r.read w) =
      if pat.toNat ≤ w.toNat ∧ w.toNat < pat.toNat + 2 ^ k then some (read w)
      else (rs.find? fun r => r.spells w).map fun r => r.read w := by
  rw [find_row]
  exact if_congr (spells_iff _ k hm hp w) rfl rfl

/-- Decode (R117) by intervals of the word's number. -/
theorem decode_eq (w : Word64) :
    decode w =
      if w.toNat = 0 then some .nop
      else if w.toNat = 0x01 * 2 ^ 56 then some .startA
      else if w.toNat = 0x02 * 2 ^ 56 then some .startB
      else if w.toNat = 0x03 * 2 ^ 56 then some .wipe
      else if w.toNat = 0x04 * 2 ^ 56 then some .rdstat
      else if w.toNat = 0x05 * 2 ^ 56 then some .rdcntl
      else if w.toNat = 0x06 * 2 ^ 56 then some .rdcnth
      else if 0x10 * 2 ^ 56 ≤ w.toNat ∧ w.toNat < 0x10 * 2 ^ 56 + 2 ^ 8 then some (.feed1 (operandByte w 0))
      else if 0x11 * 2 ^ 56 ≤ w.toNat ∧ w.toNat < 0x11 * 2 ^ 56 + 2 ^ 16 then
        some (.feed2 (operandByte w 0) (operandByte w 1))
      else if 0x12 * 2 ^ 56 ≤ w.toNat ∧ w.toNat < 0x12 * 2 ^ 56 + 2 ^ 24 then
        some (.feed3 (operandByte w 0) (operandByte w 1) (operandByte w 2))
      else if 0x13 * 2 ^ 56 ≤ w.toNat ∧ w.toNat < 0x13 * 2 ^ 56 + 2 ^ 32 then
        some (.feed4 (operandByte w 0) (operandByte w 1) (operandByte w 2) (operandByte w 3))
      else if w.toNat = 0x20 * 2 ^ 56 then some .finish
      else if 0x30 * 2 ^ 56 ≤ w.toNat ∧ w.toNat < 0x30 * 2 ^ 56 + 2 ^ 4 then some (.rdhex (operandIndex w))
      else if 0x31 * 2 ^ 56 ≤ w.toNat ∧ w.toNat < 0x31 * 2 ^ 56 + 2 ^ 4 then some (.rdraw (operandIndex w))
      else none := by
  unfold decode opcodeMap
  simp only [List.cons_append, List.nil_append]
  rw [find_row_exact, find_row_exact, find_row_exact, find_row_exact, find_row_exact, find_row_exact, find_row_exact,
    find_row_upto 8 _ _ _ _ _ _ (by rfl) (by rfl), find_row_upto 16 _ _ _ _ _ _ (by rfl) (by rfl),
    find_row_upto 24 _ _ _ _ _ _ (by rfl) (by rfl), find_row_upto 32 _ _ _ _ _ _ (by rfl) (by rfl),
    find_row_exact, find_row_upto 4 _ _ _ _ _ _ (by rfl) (by rfl),
    find_row_upto 4 _ _ _ _ _ _ (by rfl) (by rfl)]
  rfl

/-- The outcomes of decode, each with the words it is for (R115, R116). -/
theorem decode_cases (w : Word64) :
    (w.toNat = 0 ∧ decode w = some .nop) ∨
    (w.toNat = 0x01 * 2 ^ 56 ∧ decode w = some .startA) ∨
    (w.toNat = 0x02 * 2 ^ 56 ∧ decode w = some .startB) ∨
    (w.toNat = 0x03 * 2 ^ 56 ∧ decode w = some .wipe) ∨
    (w.toNat = 0x04 * 2 ^ 56 ∧ decode w = some .rdstat) ∨
    (w.toNat = 0x05 * 2 ^ 56 ∧ decode w = some .rdcntl) ∨
    (w.toNat = 0x06 * 2 ^ 56 ∧ decode w = some .rdcnth) ∨
    ((0x10 * 2 ^ 56 ≤ w.toNat ∧ w.toNat < 0x10 * 2 ^ 56 + 2 ^ 8) ∧ decode w = some (.feed1 (operandByte w 0))) ∨
    ((0x11 * 2 ^ 56 ≤ w.toNat ∧ w.toNat < 0x11 * 2 ^ 56 + 2 ^ 16) ∧ decode w = some (.feed2 (operandByte w 0) (operandByte w 1))) ∨
    ((0x12 * 2 ^ 56 ≤ w.toNat ∧ w.toNat < 0x12 * 2 ^ 56 + 2 ^ 24) ∧ decode w = some (.feed3 (operandByte w 0) (operandByte w 1) (operandByte w 2))) ∨
    ((0x13 * 2 ^ 56 ≤ w.toNat ∧ w.toNat < 0x13 * 2 ^ 56 + 2 ^ 32) ∧ decode w = some (.feed4 (operandByte w 0) (operandByte w 1) (operandByte w 2) (operandByte w 3))) ∨
    (w.toNat = 0x20 * 2 ^ 56 ∧ decode w = some .finish) ∨
    ((0x30 * 2 ^ 56 ≤ w.toNat ∧ w.toNat < 0x30 * 2 ^ 56 + 2 ^ 4) ∧ decode w = some (.rdhex (operandIndex w))) ∨
    ((0x31 * 2 ^ 56 ≤ w.toNat ∧ w.toNat < 0x31 * 2 ^ 56 + 2 ^ 4) ∧ decode w = some (.rdraw (operandIndex w))) ∨
    (¬ (w.toNat = 0) ∧
      ¬ (w.toNat = 0x01 * 2 ^ 56) ∧
      ¬ (w.toNat = 0x02 * 2 ^ 56) ∧
      ¬ (w.toNat = 0x03 * 2 ^ 56) ∧
      ¬ (w.toNat = 0x04 * 2 ^ 56) ∧
      ¬ (w.toNat = 0x05 * 2 ^ 56) ∧
      ¬ (w.toNat = 0x06 * 2 ^ 56) ∧
      ¬ (0x10 * 2 ^ 56 ≤ w.toNat ∧ w.toNat < 0x10 * 2 ^ 56 + 2 ^ 8) ∧
      ¬ (0x11 * 2 ^ 56 ≤ w.toNat ∧ w.toNat < 0x11 * 2 ^ 56 + 2 ^ 16) ∧
      ¬ (0x12 * 2 ^ 56 ≤ w.toNat ∧ w.toNat < 0x12 * 2 ^ 56 + 2 ^ 24) ∧
      ¬ (0x13 * 2 ^ 56 ≤ w.toNat ∧ w.toNat < 0x13 * 2 ^ 56 + 2 ^ 32) ∧
      ¬ (w.toNat = 0x20 * 2 ^ 56) ∧
      ¬ (0x30 * 2 ^ 56 ≤ w.toNat ∧ w.toNat < 0x30 * 2 ^ 56 + 2 ^ 4) ∧
      ¬ (0x31 * 2 ^ 56 ≤ w.toNat ∧ w.toNat < 0x31 * 2 ^ 56 + 2 ^ 4) ∧
      decode w = none) := by
  rw [decode_eq]
  by_cases h0 : w.toNat = 0
  · rw [if_pos h0]; exact .inl ⟨h0, rfl⟩
  rw [if_neg h0]
  by_cases h1 : w.toNat = 0x01 * 2 ^ 56
  · rw [if_pos h1]; exact (.inr <| .inl ⟨h1, rfl⟩)
  rw [if_neg h1]
  by_cases h2 : w.toNat = 0x02 * 2 ^ 56
  · rw [if_pos h2]; exact (.inr <| (.inr <| .inl ⟨h2, rfl⟩))
  rw [if_neg h2]
  by_cases h3 : w.toNat = 0x03 * 2 ^ 56
  · rw [if_pos h3]; exact (.inr <| (.inr <| (.inr <| .inl ⟨h3, rfl⟩)))
  rw [if_neg h3]
  by_cases h4 : w.toNat = 0x04 * 2 ^ 56
  · rw [if_pos h4]; exact (.inr <| (.inr <| (.inr <| (.inr <| .inl ⟨h4, rfl⟩))))
  rw [if_neg h4]
  by_cases h5 : w.toNat = 0x05 * 2 ^ 56
  · rw [if_pos h5]; exact (.inr <| (.inr <| (.inr <| (.inr <| (.inr <| .inl ⟨h5, rfl⟩)))))
  rw [if_neg h5]
  by_cases h6 : w.toNat = 0x06 * 2 ^ 56
  · rw [if_pos h6]; exact (.inr <| (.inr <| (.inr <| (.inr <| (.inr <| (.inr <| .inl ⟨h6, rfl⟩))))))
  rw [if_neg h6]
  by_cases h7 : (0x10 * 2 ^ 56 ≤ w.toNat ∧ w.toNat < 0x10 * 2 ^ 56 + 2 ^ 8)
  · rw [if_pos h7]; exact (.inr <| (.inr <| (.inr <| (.inr <| (.inr <| (.inr <| (.inr <| .inl ⟨h7, rfl⟩)))))))
  rw [if_neg h7]
  by_cases h8 : (0x11 * 2 ^ 56 ≤ w.toNat ∧ w.toNat < 0x11 * 2 ^ 56 + 2 ^ 16)
  · rw [if_pos h8]; exact (.inr <| (.inr <| (.inr <| (.inr <| (.inr <| (.inr <| (.inr <| (.inr <| .inl ⟨h8, rfl⟩))))))))
  rw [if_neg h8]
  by_cases h9 : (0x12 * 2 ^ 56 ≤ w.toNat ∧ w.toNat < 0x12 * 2 ^ 56 + 2 ^ 24)
  · rw [if_pos h9]; exact (.inr <| (.inr <| (.inr <| (.inr <| (.inr <| (.inr <| (.inr <| (.inr <| (.inr <| .inl ⟨h9, rfl⟩)))))))))
  rw [if_neg h9]
  by_cases h10 : (0x13 * 2 ^ 56 ≤ w.toNat ∧ w.toNat < 0x13 * 2 ^ 56 + 2 ^ 32)
  · rw [if_pos h10]; exact (.inr <| (.inr <| (.inr <| (.inr <| (.inr <| (.inr <| (.inr <| (.inr <| (.inr <| (.inr <| .inl ⟨h10, rfl⟩))))))))))
  rw [if_neg h10]
  by_cases h11 : w.toNat = 0x20 * 2 ^ 56
  · rw [if_pos h11]; exact (.inr <| (.inr <| (.inr <| (.inr <| (.inr <| (.inr <| (.inr <| (.inr <| (.inr <| (.inr <| (.inr <| .inl ⟨h11, rfl⟩)))))))))))
  rw [if_neg h11]
  by_cases h12 : (0x30 * 2 ^ 56 ≤ w.toNat ∧ w.toNat < 0x30 * 2 ^ 56 + 2 ^ 4)
  · rw [if_pos h12]; exact (.inr <| (.inr <| (.inr <| (.inr <| (.inr <| (.inr <| (.inr <| (.inr <| (.inr <| (.inr <| (.inr <| (.inr <| .inl ⟨h12, rfl⟩))))))))))))
  rw [if_neg h12]
  by_cases h13 : (0x31 * 2 ^ 56 ≤ w.toNat ∧ w.toNat < 0x31 * 2 ^ 56 + 2 ^ 4)
  · rw [if_pos h13]; exact (.inr <| (.inr <| (.inr <| (.inr <| (.inr <| (.inr <| (.inr <| (.inr <| (.inr <| (.inr <| (.inr <| (.inr <| (.inr <| .inl ⟨h13, rfl⟩)))))))))))))
  rw [if_neg h13]
  exact (.inr <| (.inr <| (.inr <| (.inr <| (.inr <| (.inr <| (.inr <| (.inr <| (.inr <| (.inr <| (.inr <| (.inr <| (.inr <| (.inr <| ⟨h0, h1, h2, h3, h4, h5, h6, h7, h8, h9, h10, h11, h12, h13, rfl⟩))))))))))))))

/-- Putting bits side by side adds their numbers (R12). -/
theorem toNat_append_add {m n : Nat} (x : BitVec m) (y : BitVec n) : (x ++ y).toNat = x.toNat * 2 ^ n + y.toNat := by
  rw [BitVec.toNat_append, ← Nat.shiftLeft_add_eq_or_of_lt y.isLt, Nat.shiftLeft_eq]

/-- The number of a command word (R110). -/
theorem commandWord_toNat (opc : BitVec 8) (data : BitVec 32) :
    (commandWord opc data).toNat = opc.toNat * 2 ^ 56 + data.toNat := by
  have h0 : (0 : BitVec 24).toNat = 0 := rfl
  simp only [commandWord, toNat_append_add, h0]
  omega

/-- The numbers of the words encode gives (R112, R113, R114). -/
theorem encode_toNat (i : Instr) : (encode i).toNat =
    match i with
    | .nop => 0
    | .startA => 0x01 * 2 ^ 56
    | .startB => 0x02 * 2 ^ 56
    | .wipe => 0x03 * 2 ^ 56
    | .rdstat => 0x04 * 2 ^ 56
    | .rdcntl => 0x05 * 2 ^ 56
    | .rdcnth => 0x06 * 2 ^ 56
    | .feed1 b0 => 0x10 * 2 ^ 56 + b0.toNat
    | .feed2 b0 b1 => 0x11 * 2 ^ 56 + (b1.toNat * 2 ^ 8 + b0.toNat)
    | .feed3 b0 b1 b2 => 0x12 * 2 ^ 56 + ((b2.toNat * 2 ^ 8 + b1.toNat) * 2 ^ 8 + b0.toNat)
    | .feed4 b0 b1 b2 b3 =>
      0x13 * 2 ^ 56 + (((b3.toNat * 2 ^ 8 + b2.toNat) * 2 ^ 8 + b1.toNat) * 2 ^ 8 + b0.toNat)
    | .finish => 0x20 * 2 ^ 56
    | .rdhex idx => 0x30 * 2 ^ 56 + idx % 16
    | .rdraw idx => 0x31 * 2 ^ 56 + idx % 16 := by
  have z (n : Nat) : (0 : BitVec n).toNat = 0 := by simp
  cases i <;> simp only [encode, commandWord_toNat, toNat_append_add, z] <;> simp

theorem operandByte_toNat (w : Word64) (k : Nat) : (operandByte w k).toNat = w.toNat / 2 ^ (8 * k) % 256 := by
  simp [operandByte, BitVec.extractLsb'_toNat, Nat.shiftRight_eq_div_pow]

theorem operandIndex_eq (w : Word64) : operandIndex w = w.toNat % 16 := by
  simp [operandIndex, BitVec.extractLsb'_toNat]

end Sys2Proof
end

