-- ==== Sys2Proof/Laws/State.lean ====
section
/-! SUPPORT. One lemma per field per update of the state, each true by rfl. -/

namespace Sys2Proof.Machine

@[simp] theorem answered_core (s : State) (c : CoreState) (d : Word) : (answered s c d).core = c := rfl
@[simp] theorem answered_pending (s : State) (c : CoreState) (d : Word) : (answered s c d).pending = s.pending := rfl
@[simp] theorem answered_responses (s : State) (c : CoreState) (d : Word) :
    (answered s c d).responses = ⟨0x00, d⟩ :: s.responses := rfl
@[simp] theorem answered_faultSeen (s : State) (c : CoreState) (d : Word) : (answered s c d).faultSeen = s.faultSeen := rfl

@[simp] theorem failed_phase (s : State) (e : BitVec 8) : (failed s e).core.phase = s.core.phase := rfl
@[simp] theorem failed_alg (s : State) (e : BitVec 8) : (failed s e).core.alg = s.core.alg := rfl
@[simp] theorem failed_h (s : State) (e : BitVec 8) : (failed s e).core.h = s.core.h := rfl
@[simp] theorem failed_buf (s : State) (e : BitVec 8) : (failed s e).core.buf = s.core.buf := rfl
@[simp] theorem failed_total (s : State) (e : BitVec 8) : (failed s e).core.total = s.core.total := rfl
@[simp] theorem failed_dg (s : State) (e : BitVec 8) : (failed s e).core.dg = s.core.dg := rfl
@[simp] theorem failed_dlen (s : State) (e : BitVec 8) : (failed s e).core.dlen = s.core.dlen := rfl
@[simp] theorem failed_err (s : State) (e : BitVec 8) :
    (failed s e).core.err = if s.core.err = 0 then e else s.core.err := rfl
@[simp] theorem failed_pending (s : State) (e : BitVec 8) : (failed s e).pending = s.pending := rfl
@[simp] theorem failed_responses (s : State) (e : BitVec 8) : (failed s e).responses = ⟨e, 0⟩ :: s.responses := rfl
@[simp] theorem failed_faultSeen (s : State) (e : BitVec 8) : (failed s e).faultSeen = true := rfl

/-- WipeAll leaves the reset state of the core, whatever it was (R353, R430). -/
@[simp] theorem wipeAll_eq (c : CoreState) : wipeAll c = CoreState.reset := rfl

@[simp] theorem reset_phase : CoreState.reset.phase = 0 := rfl
@[simp] theorem reset_alg : CoreState.reset.alg = 0 := rfl
@[simp] theorem reset_h : CoreState.reset.h = StateWords.zero := rfl
@[simp] theorem reset_buf : CoreState.reset.buf = [] := rfl
@[simp] theorem reset_total : CoreState.reset.total = 0 := rfl
@[simp] theorem reset_dg : CoreState.reset.dg = Vector.replicate 20 0 := rfl
@[simp] theorem reset_dlen : CoreState.reset.dlen = 0 := rfl
@[simp] theorem reset_err : CoreState.reset.err = 0 := rfl

@[simp] theorem startSession_phase (a : BitVec 1) (c : CoreState) : (startSession a c).phase = 1 := rfl
@[simp] theorem startSession_alg (a : BitVec 1) (c : CoreState) : (startSession a c).alg = a := rfl
@[simp] theorem startSession_h (a : BitVec 1) (c : CoreState) : (startSession a c).h = initialWords a := rfl
@[simp] theorem startSession_buf (a : BitVec 1) (c : CoreState) : (startSession a c).buf = [] := rfl
@[simp] theorem startSession_total (a : BitVec 1) (c : CoreState) : (startSession a c).total = 0 := rfl
@[simp] theorem startSession_dg (a : BitVec 1) (c : CoreState) : (startSession a c).dg = Vector.replicate 20 0 := rfl
@[simp] theorem startSession_dlen (a : BitVec 1) (c : CoreState) : (startSession a c).dlen = 0 := rfl
@[simp] theorem startSession_err (a : BitVec 1) (c : CoreState) : (startSession a c).err = 0 := rfl

@[simp] theorem latchDigest_phase (c : CoreState) : (latchDigest c).phase = 2 := rfl
@[simp] theorem latchDigest_alg (c : CoreState) : (latchDigest c).alg = c.alg := rfl
@[simp] theorem latchDigest_h (c : CoreState) : (latchDigest c).h = StateWords.zero := rfl
@[simp] theorem latchDigest_buf (c : CoreState) : (latchDigest c).buf = [] := rfl
@[simp] theorem latchDigest_total (c : CoreState) : (latchDigest c).total = 0 := rfl
@[simp] theorem latchDigest_dg (c : CoreState) : (latchDigest c).dg = digestBytes c.alg c.h := rfl
@[simp] theorem latchDigest_dlen (c : CoreState) : (latchDigest c).dlen = hexLength c.alg := rfl
@[simp] theorem latchDigest_err (c : CoreState) : (latchDigest c).err = c.err := rfl

@[simp] theorem withFetchWord_core (s : State) (n w : Nat) : (s.withFetchWord n w).core = s.core := rfl
@[simp] theorem withFetchWord_pending (s : State) (n w : Nat) :
    (s.withFetchWord n w).pending = .command (tableWord n w) :: s.pending := rfl

end Sys2Proof.Machine
end

