-- ==== Sys2Proof/Laws/Exec.lean ====
section
/-! SUPPORT. What a command can do, said once: how it answers, how it fails, and the inversion of exec and of step. -/

namespace Sys2Proof.Machine

theorem complete_eq (c : CoreState) (d : Word) (s : State) : complete c d s = .next (answered s c d) := rfl

theorem raiseError_eq (e : BitVec 8) (s : State) : raiseError e s = .next (failed s e) := rfl

theorem inAnyPhase_ok {s : State} (h : s.core.phase ≠ 3) (k : Result) : inAnyPhase s k = k := if_neg h

theorem inAnyPhase_three {s : State} (h : s.core.phase = 3) (k : Result) : inAnyPhase s k = .fault .phaseUndefined := if_pos h

/-- The four values of PHASE. -/
theorem phase_cases (p : BitVec 2) : p = 0 ∨ p = 1 ∨ p = 2 ∨ p = 3 := by
  revert p; decide

theorem inAbsorb_idle {s : State} (h : s.core.phase = 0) (k : Result) : inAbsorb s k = .next (failed s 0x02) := by
  simp [inAbsorb, inAnyPhase, h, raiseError_eq]

theorem inAbsorb_done {s : State} (h : s.core.phase = 2) (k : Result) : inAbsorb s k = .next (failed s 0x03) := by
  simp [inAbsorb, inAnyPhase, h, raiseError_eq]

theorem inAbsorb_absorb {s : State} (h : s.core.phase = 1) (k : Result) : inAbsorb s k = k := by
  simp [inAbsorb, inAnyPhase, h]

theorem inDone_done {s : State} (h : s.core.phase = 2) (k : Result) : inDone s k = k := by
  simp [inDone, inAnyPhase, h]

theorem inDone_other {s : State} (h : s.core.phase = 0 ∨ s.core.phase = 1) (k : Result) :
    inDone s k = .next (failed s 0x04) := by
  rcases h with h | h <;> simp [inDone, inAnyPhase, h, raiseError_eq]

/-- The number of the STAT word (R49). -/
theorem stat_toNat (c : CoreState) : c.stat.toNat =
    c.phase.toNat + c.alg.toNat * 2 ^ 2 + c.fill * 2 ^ 4 + c.err.toNat * 2 ^ 16 + c.dlen.toNat * 2 ^ 24 := by
  have z (n : Nat) : (0 : BitVec n).toNat = 0 := by simp
  simp only [CoreState.stat, toNat_append_add, z, CoreState.fill]
  omega

/-- Every FEED command is feedCommand of its bytes. -/
theorem exec_feed {i : Instr} (hi : IsFeed i) (s : State) : exec i s = feedCommand (fedBytes i) s := by
  cases i <;> first | rfl | exact absurd rfl hi

/-- The core a FEED leaves in ABSORB (R151). -/
def fedCore (bytes : List Byte) (c : CoreState) : CoreState :=
  { absorbedAll bytes c.fill c with total := c.total + BitVec.ofNat 64 bytes.length }

@[simp] theorem fedCore_phase (bytes : List Byte) (c : CoreState) : (fedCore bytes c).phase = c.phase := by
  simp [fedCore]
@[simp] theorem fedCore_alg (bytes : List Byte) (c : CoreState) : (fedCore bytes c).alg = c.alg := by
  simp [fedCore]
@[simp] theorem fedCore_dg (bytes : List Byte) (c : CoreState) : (fedCore bytes c).dg = c.dg := by
  simp only [fedCore]; rw [absorbedAll_rest]
@[simp] theorem fedCore_dlen (bytes : List Byte) (c : CoreState) : (fedCore bytes c).dlen = c.dlen := by
  simp only [fedCore]; rw [absorbedAll_rest]
@[simp] theorem fedCore_err (bytes : List Byte) (c : CoreState) : (fedCore bytes c).err = c.err := by
  simp only [fedCore]; rw [absorbedAll_rest]
@[simp] theorem fedCore_total (bytes : List Byte) (c : CoreState) :
    (fedCore bytes c).total = c.total + BitVec.ofNat 64 bytes.length := rfl
@[simp] theorem fedCore_fill (bytes : List Byte) (c : CoreState) : (fedCore bytes c).fill = (c.fill + bytes.length) % 64 :=
  fill_add _ rfl

theorem feed_ok (bytes : List Byte) (c : CoreState) : feed bytes c = .ok (fedCore bytes c) := feed_eq c

/-- Feeding s and then t is feeding s ++ t (R158). -/
theorem fedCore_append (s t : List Byte) (c : CoreState) : fedCore t (fedCore s c) = fedCore (s ++ t) c := by
  have h := feed_append s t c
  rw [feed_ok, feed_ok] at h
  simp only [bind, Except.bind] at h
  rw [feed_ok] at h
  exact (Except.ok.inj h).symm

theorem validBytes_length (c : CoreState) : c.validBytes.length = c.fill := by simp [CoreState.validBytes]

/-- Feeding after the valid bytes: the buffer stays canonical, H is compressed with the complete blocks,
and the tail is valid (R53). -/
theorem fedCore_stream {bytes : List Byte} {c : CoreState} (hm : c.buf.wf = true) :
    (fedCore bytes c).buf.wf = true ∧
    (fedCore bytes c).h = compressBlocks c.alg c.h (completeBlocks (c.validBytes ++ bytes)) ∧
    (fedCore bytes c).validBytes = tailBytes (c.validBytes ++ bytes) := by
  have h := absorbedAll_stream (s := bytes) (fill_lt c) hm
  refine ⟨h.1, h.2.1, ?_⟩
  rw [CoreState.validBytes, fedCore_fill]
  exact h.2.2

/-- A FEED in ABSORB completes (R153 to R156). -/
theorem exec_feed_absorb {i : Instr} (hi : IsFeed i) {s : State} (h : s.core.phase = 1) :
    exec i s = .next (answered s (fedCore (fedBytes i) s.core) 0) := by
  rw [exec_feed hi, feedCommand, inAbsorb_absorb h, feed_ok]
  rfl

/-- The core FINISH leaves in ABSORB (R311). -/
def finishedCore (c : CoreState) : CoreState := latchDigest (absorbedAll (padding c.alg c.fill c.total) c.fill c)

/-- FINISH in ABSORB completes (R311). -/
theorem exec_finish_absorb {s : State} (h : s.core.phase = 1) :
    exec .finish s = .next (answered s (finishedCore s.core) ((hexLength s.core.alg).setWidth 32)) := by
  show execFinish s = _
  rw [execFinish, inAbsorb_absorb h, pad_eq]
  simp only [finishWith, Functor.map, Except.map, complete_eq, finishedCore, latchDigest_dlen, absorbedAll_alg]

/-- What a command can do where it goes on: fail with one of its codes, read, start, wipe, feed or finish. -/
inductive Effect (i : Instr) (s : State) : State → Prop where
  | noSession (h : NeedsSession i) (hp : s.core.phase = 0) : Effect i s (failed s 0x02)
  | misuse (h : NeedsSession i) (hp : s.core.phase = 2) : Effect i s (failed s 0x03)
  | notReady (h : IsDigestRead i) (hp : s.core.phase = 0 ∨ s.core.phase = 1) : Effect i s (failed s 0x04)
  | range (h : IsDigestRead i) (hp : s.core.phase = 2) : Effect i s (failed s 0x05)
  | read (d : Word) (hn : ¬ NeedsSession i) (hc : ¬ ClearsErr i) (hp : s.core.phase ≠ 3) : Effect i s (answered s s.core d)
  | startA (h : i = .startA) (hp : s.core.phase ≠ 3) : Effect i s (answered s (startSession 0 s.core) 0)
  | startB (h : i = .startB) (hp : s.core.phase ≠ 3) : Effect i s (answered s (startSession 1 s.core) 0)
  | wipe (h : i = .wipe) (hp : s.core.phase ≠ 3) : Effect i s (answered s CoreState.reset 0)
  | fed (h : IsFeed i) (hp : s.core.phase = 1) : Effect i s (answered s (fedCore (fedBytes i) s.core) 0)
  | finished (h : i = .finish) (hp : s.core.phase = 1) :
      Effect i s (answered s (finishedCore s.core) ((hexLength s.core.alg).setWidth 32))

theorem isFeed_or (i : Instr) : IsFeed i ∨ i = .finish ∨ IsDigestRead i ∨ ClearsErr i ∨
    i = .nop ∨ i = .rdstat ∨ i = .rdcntl ∨ i = .rdcnth := by
  cases i <;> simp [IsFeed, fedBytes, IsDigestRead, ClearsErr]

theorem readGroup_def (form : Except Fault (List Byte)) (groups idx : Nat) (s : State) :
    readGroup form groups idx s = inDone s
      (if groups ≤ idx then raiseError eRange s
       else match form with
        | .ok bytes => complete s.core (le32 bytes (4 * idx)) s
        | .error f => .fault f) := rfl

theorem readGroup_ok {form : Except Fault (List Byte)} {groups idx : Nat} {s : State} {bytes : List Byte}
    (hp : s.core.phase = 2) (hi : idx < groups) (hf : form = .ok bytes) :
    readGroup form groups idx s = .next (answered s s.core (le32 bytes (4 * idx))) := by
  rw [readGroup_def, inDone_done hp, if_neg (by omega), hf]
  rfl

theorem readGroup_inv {form : Except Fault (List Byte)} {groups idx : Nat} {s t : State}
    (h : readGroup form groups idx s = .next t) :
    ((s.core.phase = 0 ∨ s.core.phase = 1) ∧ t = failed s 0x04) ∨
    (s.core.phase = 2 ∧ t = failed s 0x05) ∨
    (s.core.phase = 2 ∧ idx < groups ∧ ∃ bytes, form = .ok bytes ∧ t = answered s s.core (le32 bytes (4 * idx))) := by
  rcases phase_cases s.core.phase with hp | hp | hp | hp
  · rw [readGroup_def, inDone_other (.inl hp)] at h; cases h; exact .inl ⟨.inl hp, rfl⟩
  · rw [readGroup_def, inDone_other (.inr hp)] at h; cases h; exact .inl ⟨.inr hp, rfl⟩
  · rw [readGroup_def, inDone_done hp] at h
    split at h
    · rw [raiseError_eq] at h; cases h; exact .inr (.inl ⟨hp, rfl⟩)
    · split at h
      · rw [complete_eq] at h; cases h; exact .inr (.inr ⟨hp, by omega, _, rfl, rfl⟩)
      · cases h
  · rw [readGroup_def, inDone, inAnyPhase_three hp] at h; cases h

/-- The inversion of exec. -/
theorem exec_effect {i : Instr} {s t : State} (h : exec i s = .next t) : Effect i s t := by
  have three : s.core.phase = 3 → ∀ k : Result, inAnyPhase s k ≠ .next t := fun h3 k he => by
    rw [inAnyPhase_three h3] at he; cases he
  have any : ∀ {c : CoreState} {d : Word}, inAnyPhase s (complete c d s) = .next t → s.core.phase ≠ 3 ∧ t = answered s c d :=
    fun {c d} he => by
      have h3 : s.core.phase ≠ 3 := fun h3 => three h3 _ he
      rw [inAnyPhase_ok h3, complete_eq] at he
      cases he
      exact ⟨h3, rfl⟩
  rcases isFeed_or i with hi | rfl | ⟨j, rfl | rfl⟩ | (rfl | rfl | rfl) | rfl | rfl | rfl | rfl
  · rcases phase_cases s.core.phase with hp | hp | hp | hp
    · rw [exec_feed hi, feedCommand, inAbsorb_idle hp] at h; cases h; exact .noSession (.inl hi) hp
    · rw [exec_feed_absorb hi hp] at h; cases h; exact .fed hi hp
    · rw [exec_feed hi, feedCommand, inAbsorb_done hp] at h; cases h; exact .misuse (.inl hi) hp
    · rw [exec_feed hi] at h; exact absurd h (three hp _)
  · rcases phase_cases s.core.phase with hp | hp | hp | hp
    · change execFinish s = _ at h; rw [execFinish, inAbsorb_idle hp] at h; cases h; exact .noSession (.inr rfl) hp
    · rw [exec_finish_absorb hp] at h; cases h; exact .finished rfl hp
    · change execFinish s = _ at h; rw [execFinish, inAbsorb_done hp] at h; cases h; exact .misuse (.inr rfl) hp
    · exact absurd h (three hp _)
  · rcases readGroup_inv h with ⟨hp, rfl⟩ | ⟨hp, rfl⟩ | ⟨hp, -, b, -, rfl⟩
    · exact .notReady ⟨j, .inl rfl⟩ hp
    · exact .range ⟨j, .inl rfl⟩ hp
    · exact .read _ (by simp [NeedsSession, IsFeed, fedBytes]) (by simp [ClearsErr]) (by rw [hp]; decide)
  · rcases readGroup_inv h with ⟨hp, rfl⟩ | ⟨hp, rfl⟩ | ⟨hp, -, b, -, rfl⟩
    · exact .notReady ⟨j, .inr rfl⟩ hp
    · exact .range ⟨j, .inr rfl⟩ hp
    · exact .read _ (by simp [NeedsSession, IsFeed, fedBytes]) (by simp [ClearsErr]) (by rw [hp]; decide)
  · obtain ⟨h3, rfl⟩ := any h; exact .startA rfl h3
  · obtain ⟨h3, rfl⟩ := any h; exact .startB rfl h3
  · obtain ⟨h3, rfl⟩ := any h; exact .wipe rfl h3
  all_goals
    obtain ⟨h3, rfl⟩ := any h
    exact .read _ (by simp [NeedsSession, IsFeed, fedBytes]) (by simp [ClearsErr]) h3

theorem exec_three {s : State} (h : s.core.phase = 3) (i : Instr) : exec i s = .fault .phaseUndefined := by
  cases i <;> exact inAnyPhase_three h _

/-- The inversion of step: a command word runs its command or fails as illegal; reset resets. -/
theorem step_cases {s t : State} (h : step s = .next t) :
    (∃ w rest i, s.pending = .command w :: rest ∧ decode w = some i ∧ exec i { s with pending := rest } = .next t) ∨
    (∃ w rest, s.pending = .command w :: rest ∧ decode w = none ∧ s.core.phase ≠ 3 ∧
      t = failed { s with pending := rest } 0x01) ∨
    (∃ rest, s.pending = .reset :: rest ∧ t = { s with core := CoreState.reset, pending := rest }) := by
  unfold step at h
  cases hp : s.pending with
  | nil => rw [hp] at h; cases h
  | cons a rest =>
    rw [hp] at h
    cases a with
    | command w =>
      simp only [act, runCommand] at h
      cases hd : decode w with
      | some i => rw [hd] at h; exact .inl ⟨w, rest, i, rfl, hd, h⟩
      | none =>
        rw [hd] at h
        simp only [execIllegal] at h
        by_cases h3 : s.core.phase = 3
        · rw [inAnyPhase_three (s := { s with pending := rest }) h3] at h; cases h
        · rw [inAnyPhase_ok (s := { s with pending := rest }) h3, raiseError_eq] at h; cases h
          exact .inr (.inl ⟨w, rest, rfl, hd, h3, rfl⟩)
    | overlapped w => cases h
    | reset => cases h; exact .inr (.inr ⟨rest, rfl, rfl⟩)
    | resetDuring w => cases h

end Sys2Proof.Machine
end

