-- ==== Sys2Proof/Laws/Finalizer.lean ====
section
/-! SUPPORT. The padding's length, the bytes of a latched digest, and the four bytes a digest read packs (spec/44_finalizer.md R300 to R314). -/

namespace Sys2Proof.Machine

theorem lengthField_length (alg : BitVec 1) (t : Word64) : (lengthField alg t).length = 8 := by
  unfold lengthField; split <;> simp [le64bytes, be64bytes]

theorem padding_length (alg : BitVec 1) (f : Nat) (t : Word64) : (padding alg f t).length = 9 + (119 - f) % 64 := by
  simp [padding, padBytes, lengthField_length]; omega

/-- The padding ends a block (R303). -/
theorem fill_padding (c : CoreState) : (c.fill + (padding c.alg c.fill c.total).length) % 64 = 0 := by
  have := fill_lt c
  rw [padding_length]; omega

/-- The latched digest byte by byte (R307, R308). -/
theorem digestBytes_getD (alg : BitVec 1) (h : StateWords) (k : Nat) (hk : k < 20) :
    (digestBytes alg h).toList.getD k 0 =
      if alg = 0 then (if k < 16 then byteLE (h.get (k / 4)) (k % 4) else 0) else byteBE (h.get (k / 4)) (k % 4) := by
  rw [List.getD_eq_getElem?_getD, List.getElem?_eq_getElem (by simpa using hk), Option.getD_some, Vector.getElem_toList]
  unfold digestBytes digestBytesA digestBytesB
  split <;> simp only [Vector.getElem_ofFn]

/-- The bytes of a digest length FINISH writes are inside the latch (R311). -/
theorem latchRead_ok {n : Nat} (dg : Vector Byte 20) (h : n ≤ 20) : latchRead n dg = .ok (dg.toList.take n) := if_pos h

/-- The hex digest of a length FINISH writes (R310). -/
theorem hexDigest_ok {c : CoreState} (h : c.dlen.toNat / 2 ≤ 20) :
    hexDigest c = .ok (hexOf (c.dg.toList.take (c.dlen.toNat / 2))) := by
  unfold hexDigest; rw [latchRead_ok _ h]; rfl

theorem hexOf_getD (bytes : List Byte) : ∀ k, k < bytes.length →
    (hexOf bytes).getD (2 * k) 0 = hexDigit ((bytes.getD k 0).extractLsb' 4 4) ∧
    (hexOf bytes).getD (2 * k + 1) 0 = hexDigit ((bytes.getD k 0).extractLsb' 0 4) := by
  induction bytes with
  | nil => intro k h; simp at h
  | cons b bs ih =>
    intro k h
    cases k with
    | zero => exact ⟨rfl, rfl⟩
    | succ k => exact ih k (by simpa using h)

/-- LE32 puts four bytes side by side, the first in the low byte (R12). -/
theorem le32_eq_append (bytes : List Byte) (k : Nat) : le32 bytes k =
    byteAt bytes (k + 3) ++ byteAt bytes (k + 2) ++ byteAt bytes (k + 1) ++ byteAt bytes k := by
  unfold le32
  generalize byteAt bytes k = a0
  generalize byteAt bytes (k + 1) = a1
  generalize byteAt bytes (k + 2) = a2
  generalize byteAt bytes (k + 3) = a3
  have key : ∀ i, i < 32 → (a0.setWidth 32 ||| a1.setWidth 32 <<< 8 ||| a2.setWidth 32 <<< 16 |||
      a3.setWidth 32 <<< 24).getLsbD i = (a3 ++ a2 ++ a1 ++ a0).getLsbD i := by
    intro i hi
    simp only [BitVec.getLsbD_append, BitVec.getLsbD_or, BitVec.getLsbD_shiftLeft, BitVec.getLsbD_setWidth]
    interval_cases i <;> simp [BitVec.getLsbD_of_ge]
  exact BitVec.eq_of_getLsbD_eq key

theorem le32_byte (bytes : List Byte) (k j : Nat) (hj : j < 4) :
    (le32 bytes k).extractLsb' (8 * j) 8 = byteAt bytes (k + j) := by
  rw [le32_eq_append]
  apply BitVec.eq_of_toNat_eq
  simp only [BitVec.extractLsb'_toNat, Nat.shiftRight_eq_div_pow, toNat_append_add]
  have := (byteAt bytes (k + 3)).isLt
  have := (byteAt bytes (k + 2)).isLt
  have := (byteAt bytes (k + 1)).isLt
  have := (byteAt bytes k).isLt
  interval_cases j <;> simp <;> omega

/-- A word is its four bytes. -/
theorem word_of_bytes (d : Word) :
    d = d.extractLsb' 24 8 ++ d.extractLsb' 16 8 ++ d.extractLsb' 8 8 ++ d.extractLsb' 0 8 := by
  apply BitVec.eq_of_toNat_eq
  simp only [BitVec.extractLsb'_toNat, Nat.shiftRight_eq_div_pow, toNat_append_add]
  have := d.isLt
  omega

end Sys2Proof.Machine
end

