-- ==== Sys2Proof/Laws/PerInstr.lean ====
section
/-! SUPPORT. Per command: its well-formed word is spelled by the row of the opcode map that carries its mnemonic (spec/30_encoding.md R115). -/

namespace Sys2Proof.Laws.EncodesInRow

/-- The word of a well-formed command matches the row of its own mnemonic. -/
def Statement (i : Instr) : Prop :=
  i.wf = true → ∃ r ∈ opcodeMap, r.mnemonic = i.mnemonic ∧ r.spells (encode i) = true

/-- The row at position n of the map, spelling the words from its pattern up to k operand bits. -/
theorem of_row (i : Instr) (n k : Nat) (r : Row) (hr : opcodeMap[n]? = some r) (hn : r.mnemonic = i.mnemonic)
    (hm : r.mask = BitVec.allOnes 64 <<< k) (hp : r.pattern.toNat % 2 ^ k = 0)
    (hlo : r.pattern.toNat ≤ (encode i).toNat) (hhi : (encode i).toNat < r.pattern.toNat + 2 ^ k) : Statement i :=
  fun _ => ⟨r, List.mem_of_getElem? hr, hn, (spells_iff r k hm hp _).2 ⟨hlo, hhi⟩⟩

theorem nop : Statement .nop := fun _ => by decide
theorem startA : Statement .startA := fun _ => by decide
theorem startB : Statement .startB := fun _ => by decide
theorem wipe : Statement .wipe := fun _ => by decide
theorem rdstat : Statement .rdstat := fun _ => by decide
theorem rdcntl : Statement .rdcntl := fun _ => by decide
theorem rdcnth : Statement .rdcnth := fun _ => by decide

theorem feed1 (b0 : Byte) : Statement (.feed1 b0) :=
  of_row _ 7 8 _ rfl rfl rfl rfl (by rw [encode_toNat]; exact Nat.le_add_right _ _)
    (by rw [encode_toNat]; exact Nat.add_lt_add_left b0.isLt _)

theorem feed2 (b0 b1 : Byte) : Statement (.feed2 b0 b1) :=
  of_row _ 8 16 _ rfl rfl rfl rfl (by rw [encode_toNat]; exact Nat.le_add_right _ _)
    (by rw [encode_toNat]; exact Nat.add_lt_add_left (by omega) _)

theorem feed3 (b0 b1 b2 : Byte) : Statement (.feed3 b0 b1 b2) :=
  of_row _ 9 24 _ rfl rfl rfl rfl (by rw [encode_toNat]; exact Nat.le_add_right _ _)
    (by rw [encode_toNat]; exact Nat.add_lt_add_left (by omega) _)

theorem feed4 (b0 b1 b2 b3 : Byte) : Statement (.feed4 b0 b1 b2 b3) :=
  of_row _ 10 32 _ rfl rfl rfl rfl (by rw [encode_toNat]; exact Nat.le_add_right _ _)
    (by rw [encode_toNat]; exact Nat.add_lt_add_left (by omega) _)

theorem finish : Statement .finish := fun _ => by decide

theorem rdhex (idx : Nat) : Statement (.rdhex idx) :=
  of_row _ 12 4 _ rfl rfl rfl rfl (by rw [encode_toNat]; exact Nat.le_add_right _ _)
    (by rw [encode_toNat]; exact Nat.add_lt_add_left (Nat.mod_lt _ (by omega)) _)

theorem rdraw (idx : Nat) : Statement (.rdraw idx) :=
  of_row _ 13 4 _ rfl rfl rfl rfl (by rw [encode_toNat]; exact Nat.le_add_right _ _)
    (by rw [encode_toNat]; exact Nat.add_lt_add_left (Nat.mod_lt _ (by omega)) _)

end Sys2Proof.Laws.EncodesInRow
end

