-- ==== Sys2Proof/Laws/Schedule.lean ====
section
/-! SUPPORT. The message schedule of B read word by word: its prefixes, and the recurrence of spec/43_compress_b.md R256. -/

namespace Sys2Proof.Machine

theorem wordsB_length (blk) : (wordsB blk).length = 16 := by simp [wordsB]

/-- The schedule after n expanded words. -/
def schedule (blk : List Byte) (n : Nat) : List Word := (List.range n).foldl (fun ws k => ws ++ [scheduleWord ws (k + 16)]) (wordsB blk)

theorem schedule_succ (blk) (n) : schedule blk (n+1) = schedule blk n ++ [scheduleWord (schedule blk n) (n+16)] := by
  simp [schedule, List.range_succ]

theorem schedule_length (blk) (n) : (schedule blk n).length = 16 + n := by
  induction n with
  | zero => simp [schedule, wordsB_length]
  | succ n ih => rw [schedule_succ]; simp [ih]; omega

theorem schedule_prefix (blk) (n m t : Nat) (h : t < 16 + n) (hnm : n ≤ m) : (schedule blk m).getD t 0 = (schedule blk n).getD t 0 := by
  induction m with
  | zero => have : n = 0 := by omega
            subst this; rfl
  | succ m ih =>
    by_cases hm : n = m + 1
    · rw [hm]
    · rw [schedule_succ, List.getD_append _ _ _ _ (by rw [schedule_length]; omega), ih (by omega)]

theorem schedule_word (blk) (n m : Nat) (h : n < m) : (schedule blk m).getD (n+16) 0 = scheduleWord (schedule blk m) (n+16) := by
  rw [schedule_prefix blk (n+1) m _ (by omega) (by omega), schedule_succ, List.getD_append_right _ _ _ _ (by rw [schedule_length]; omega), schedule_length]
  have : n + 16 - (16 + n) = 0 := by omega
  rw [this]
  simp only [List.getD_cons_zero, scheduleWord]
  rw [schedule_prefix blk n m _ (by omega) (by omega), schedule_prefix blk n m _ (by omega) (by omega), schedule_prefix blk n m _ (by omega) (by omega), schedule_prefix blk n m _ (by omega) (by omega)]

theorem scheduleB_eq (blk : List Byte) : scheduleB blk = schedule blk 64 := rfl

end Sys2Proof.Machine
end

