-- ==== Sys2Proof/Tests/Slice0.lean ====
section
/-! SUPPORT. Small tests against the vectors of spec/95_test_vectors.md, the WellFormed smoke test, and for every obligation with hypotheses a witness that meets them. -/

namespace Sys2Proof.Tests
open Sys2Proof Sys2Proof.Machine

/-! ### Small states -/

/-- A session just started, with TOTAL set directly, as 95_test_vectors.md section 8 does. -/
def inSession (alg : BitVec 1) (total : Word64) : State :=
  { State.reset with core := { startSession alg CoreState.reset with total := total } }

/-- A session over with the final words h. -/
def inDoneOf (alg : BitVec 1) (h : StateWords) : State :=
  { State.reset with
    core := { CoreState.reset with phase := 2, alg := alg, dg := digestBytes alg h, dlen := hexLength alg } }

/-- PHASE = 3, which no rule writes. -/
def undefinedPhase : State := { State.reset with core := { CoreState.reset with phase := 3 } }

/-- s with one action of the host's to come. -/
def upcoming (a : HostAction) (s : State) : State := { s with pending := [a] }

/-- The state after a step, where there is one. -/
def nextOf (r : Result) : Option State :=
  match r with
  | .next t => some t
  | .fault _ => none
  | .refused _ => none

/-- STATUS and RDATA of the last response, and STAT after it. -/
def seen (r : Result) : Option (BitVec 8 × Word × Word) :=
  (nextOf r).bind fun t => t.responses.head?.map fun a => (a.status, a.data, t.core.stat)

/-- The final words of the empty input under A (V-A6). -/
def emptyA : StateWords := ⟨0xd98c1dd4, 0x04b2008f, 0x980980e9, 0x7e42f8ec, 0⟩

/-- The final words of "abc" under B (V-B7). -/
def abcB : StateWords := ⟨0xa9993e36, 0x4706816a, 0xba3e2571, 0x7850c26c, 0x9cd0d89d⟩

/-- The padded "abc" block (V-A4, V-B3). -/
def abcBlock (alg : BitVec 1) : List Byte :=
  [0x61, 0x62, 0x63, 0x80] ++ List.replicate 52 0 ++
    (if alg = 0 then 0x18 :: List.replicate 7 0 else List.replicate 7 0 ++ [0x18])

/-! ### WellFormed -/

/-- R114: IDX is "unsigned 0..15". -/
theorem test_wf_refuses_index_16 : (Instr.rdhex 16).wf = false ∧ (Instr.rdraw 16).wf = false := by decide

theorem test_wf_admits_index_15 : (Instr.rdhex 15).wf = true ∧ (Instr.rdraw 15).wf = true := by decide

/-! ### Decode: V-N1, V-N2, V-N3 -/

theorem test_decode_session : decode 0x0000000000000000 = some .nop ∧ decode 0x0100000000000000 = some .startA ∧
    decode 0x0200000000000000 = some .startB ∧ decode 0x0300000000000000 = some .wipe ∧
    decode 0x0400000000000000 = some .rdstat ∧ decode 0x0500000000000000 = some .rdcntl ∧
    decode 0x0600000000000000 = some .rdcnth := by decide

theorem test_decode_feed : decode 0x1000000000000061 = some (.feed1 0x61) ∧
    decode 0x1100000000006261 = some (.feed2 0x61 0x62) ∧
    decode 0x1200000000636261 = some (.feed3 0x61 0x62 0x63) ∧
    decode 0x1300000064636261 = some (.feed4 0x61 0x62 0x63 0x64) ∧
    decode 0x130000007F8000FF = some (.feed4 0xff 0x00 0x80 0x7f) := by decide

theorem test_decode_finalizer : decode 0x2000000000000000 = some .finish ∧ decode 0x3000000000000000 = some (.rdhex 0) ∧
    decode 0x300000000000000F = some (.rdhex 15) ∧ decode 0x3100000000000004 = some (.rdraw 4) := by decide

theorem test_decode_illegal : ([0x0000000000000001, 0x0000000100000000, 0x0700000000000000, 0x0F00000000000000,
    0x1400000000000000, 0xFF00000000000000, 0x1000000000000161] ++ [0x1100000000010000, 0x1200000001000000,
    0x1300000100000000, 0x2000000000000020, 0x3000000000000010, 0x3180000000000000] : List Word64).all
      (fun w => decode w == none) = true := by decide

theorem test_encode_words : encode (.feed4 0xff 0x00 0x80 0x7f) = 0x130000007F8000FF ∧
    encode (.feed3 0x61 0x62 0x63) = 0x1200000000636261 ∧ encode (.rdhex 15) = 0x300000000000000F ∧
    encode .finish = 0x2000000000000000 := by decide

theorem test_decode_table_word : decodeTableWord 64 0x1100000000006261 = some (.feed2 0x61 0x62) := by decide

/-- The next step after withFetchWord runs the word: RDSTAT at reset returns STAT = 0 (R354, R49). -/
theorem test_fetch_word_runs : seen (step (State.reset.withFetchWord 64 0x0400000000000000)) = some (0x00, 0, 0) := by decide

theorem test_feedstr : feedStr [] = [] ∧ feedStr [0x61, 0x62, 0x63] = [.feed3 0x61 0x62 0x63] ∧
    feedStr [0x61, 0x62, 0x63, 0x64, 0x65] = [.feed4 0x61 0x62 0x63 0x64, .feed1 0x65] := by decide

theorem test_assembly_lines : assembleLine "FEED4 0xff, 0x00, 0x80, 0x7f ; R118".toList = some (.feed4 0xff 0x00 0x80 0x7f) ∧
    String.ofList (assemblyLine (.rdhex 12)) = "RDHEX 12" ∧ assembleLine "RDHEX 16".toList = none := by decide +kernel

/-! ### Primitives and engines: V-P1, V-A1, V-A2, V-A7, V-A8, V-B1, V-B4, V-B7, V-E4 -/

theorem test_rol : rol 0x80000000 1 = 0x00000001 ∧ rol 0x12345678 0 = 0x12345678 ∧ rol 0xdeadbeef 31 = 0xef56df77 := by decide

theorem test_words : wordsA (abcBlock 0) 0 = 0x80636261 ∧ wordsA (abcBlock 0) 14 = 0x00000018 ∧
    (wordsB (abcBlock 1)).getD 0 0 = 0x61626380 ∧ (wordsB (abcBlock 1)).getD 15 0 = 0x00000018 := by decide

theorem test_rounds_A : fA0 0xffff0000 0x00ff00ff 0x0f0f0f0f = 0x00ff0f0f ∧ fA1 0xffff0000 0x00ff00ff 0x0f0f0f0f = 0x0fff00f0 ∧
    fA2 0xffff0000 0x00ff00ff 0x0f0f0f0f = 0xf00f0ff0 ∧ fA3 0xffff0000 0x00ff00ff 0x0f0f0f0f = 0xff00f00f := by decide

theorem test_round_maj : fB2 0xffff0000 0x00ff00ff 0x0f0f0f0f = 0x0fff000f := by decide

theorem test_tables_A : ([0, 15, 16, 31, 32, 47, 48, 63].map fun i => (rotA i, indexA i, constA i)) =
    [(7, 0, 0xd76aa478), (22, 15, 0x49b40821), (5, 1, 0xf61e2562), (20, 12, 0x8d2a4c8a)] ++
    [(4, 5, 0xfffa3942), (23, 2, 0xc4ac5665), (6, 0, 0xf4292244), (21, 9, 0xeb86d391)] := by decide +kernel

theorem test_groups_B : [0, 19, 20, 39, 40, 59, 60, 79].map constB = [0x5a827999, 0x5a827999, 0x6ed9eba1, 0x6ed9eba1,
    0x8f1bbcdc, 0x8f1bbcdc, 0xca62c1d6, 0xca62c1d6] := by decide +kernel

theorem test_schedule : [16, 17, 18, 19, 79].map (fun t => (scheduleB (abcBlock 1)).getD t 0) =
    [0xc2c4c700, 0x00000000, 0x00000030, 0x85898e01, 0x822e0879] := by decide +kernel

theorem test_compressA_abc : compressA ivA (abcBlock 0) = ⟨0x98500190, 0xb04fd23c, 0x7d3f96d6, 0x727fe128⟩ := by decide +kernel

theorem test_compressA_zeros : compressA ivA (List.replicate 64 0) = ⟨0x031f1dac, 0x6ea58ed0, 0x1fab67b7, 0x74317791⟩ := by
  decide +kernel

theorem test_compressB_abc : compressB ivB (abcBlock 1) = abcB := by decide +kernel

theorem test_hex_digit : [0x0, 0x9, 0xa, 0xf].map hexDigit = [0x30, 0x39, 0x61, 0x66] := by decide

/-! ### One step per command -/

/-- R350. -/
theorem test_nop : seen (exec .nop (inSession 1 3)) = some (0x00, 0, 0x00000035) := by decide

/-- R351 after an unfinished B session: STAT 1, H = IV_A, H[4] = 0. -/
theorem test_startA : seen (exec .startA (inSession 1 3)) = some (0x00, 0, 0x00000001) ∧
    (nextOf (exec .startA (inSession 1 3))).map (fun t => t.core.h) =
      some ⟨0x67452301, 0xefcdab89, 0x98badcfe, 0x10325476, 0⟩ := by decide

/-- R352 after an unfinished A session: STAT 5, H[4] of IV_B. -/
theorem test_startB : seen (exec .startB (inSession 0 4)) = some (0x00, 0, 0x00000005) ∧
    (nextOf (exec .startB (inSession 0 4))).map (fun t => t.core.h.h4) = some 0xc3d2e1f0 := by decide

/-- R353: WIPE in DONE. -/
theorem test_wipe : (nextOf (exec .wipe (inDoneOf 1 abcB))).map (fun t => t.core) = some CoreState.reset := by decide

/-- P2 step 6. -/
theorem test_rdstat : seen (exec .rdstat (inDoneOf 1 abcB)) = some (0x00, 0x28000006, 0x28000006) := by decide

/-- V-F2. -/
theorem test_rdcntl : seen (exec .rdcntl (inSession 0 0xFFFFFFFFFFFFFFC0)) = some (0x00, 0xFFFFFFC0, 0x00000001) := by decide

/-- V-F2, with the two halves told apart. -/
theorem test_rdcnth : seen (exec .rdcnth (inSession 0 0x0000001200000040)) = some (0x00, 0x12, 0x00000001) := by decide

/-- V-D1. -/
theorem test_feed1 : seen (exec (.feed1 0x61) (inSession 0 0)) = some (0x00, 0, 0x00000011) ∧
    (nextOf (exec (.feed1 0x61) (inSession 0 0))).map (fun t => (t.core.buf, t.core.h)) =
      some ([(0, 0x61)], initialWords 0) := by decide

/-- V-F3: the counter wraps and the block is compressed. -/
theorem test_feed1_wraps : (nextOf (exec (.feed1 0x61) (inSession 0 0xFFFFFFFFFFFFFFFF))).map
    (fun t => (t.core.h, t.core.total, t.core.stat, t.core.buf)) =
      some (⟨0xb3ea14dd, 0x00c13591, 0x6e320376, 0x107937d9, 0⟩, 0, 0x00000001, [(63, 0x61)]) := by decide +kernel

/-- P4 step 4, operand order B0 first. -/
theorem test_feed2 : (nextOf (exec (.feed2 0x61 0x62) (inSession 0 0))).map (fun t => (t.core.buf, t.core.stat)) =
    some ([(0, 0x61), (1, 0x62)], 0x00000021) := by decide

/-- P2 step 2. -/
theorem test_feed3 : (nextOf (exec (.feed3 0x61 0x62 0x63) (inSession 1 0))).map (fun t => (t.core.buf, t.core.stat)) =
    some ([(0, 0x61), (1, 0x62), (2, 0x63)], 0x00000035) := by decide

/-- A FEED4 at fill 61 (V-D2): three bytes end the block, the fourth starts the next one. -/
theorem test_feed4_across_a_block : (nextOf (exec (.feed4 0x3d 0x3e 0x3f 0x40) (inSession 0 61))).map
    (fun t => (t.core.buf, t.core.total)) = some ([(0, 0x40), (61, 0x3d), (62, 0x3e), (63, 0x3f)], 65) := by decide +kernel

/-- V-D5. -/
theorem test_feed_outside_a_session : seen (exec (.feed1 0x61) State.reset) = some (0x02, 0, 0x00020000) ∧
    seen (exec (.feed4 0 0 0 0) (inDoneOf 0 emptyA)) = some (0x03, 0, 0x20030002) := by decide

/-- V-F4 under A: the wrapped bit length. -/
theorem test_finish_wrapped_length : (nextOf (exec .finish (inSession 0 0xFFFFFFFFFFFFFFC0))).map
    (fun t => (t.core.dg.toList.take 16, t.core.stat, t.core.h, t.core.total)) =
      some ([0xa9, 0xf3, 0xd6, 0xdf, 0xcc, 0xbd, 0x99, 0x4d, 0x6d, 0xef, 0x04, 0x34, 0xa1, 0x48, 0x9f, 0xc2],
        0x20000002, StateWords.zero, 0) := by decide +kernel

/-- V-F4 under B: the big-endian length field, and FINISH's RDATA 40 (V-E7). -/
theorem test_finish_B : (nextOf (exec .finish (inSession 1 0xFFFFFFFFFFFFFFC0))).map
    (fun t => (t.core.dg.toList, t.responses)) =
      some ([0x7e, 0xb0, 0xd0, 0xd5, 0xdb, 0x6f, 0x63, 0xb8, 0x1a, 0x15] ++
        [0x75, 0xaf, 0x25, 0x0d, 0x62, 0x20, 0xac, 0x0e, 0x9f, 0x81], [⟨0x00, 40⟩]) := by decide +kernel

/-- P1 step 3, P2 step 16. -/
theorem test_rdhex : seen (exec (.rdhex 0) (inDoneOf 0 emptyA)) = some (0x00, 0x64313464, 0x20000002) ∧
    seen (exec (.rdhex 9) (inDoneOf 1 abcB)) = some (0x00, 0x64393864, 0x28000006) := by decide +kernel

/-- V-E6, R386, R385: the first index out of range, and a read outside DONE whatever the index. -/
theorem test_rdhex_errors : seen (exec (.rdhex 8) (inDoneOf 0 emptyA)) = some (0x05, 0, 0x20050002) ∧
    seen (exec (.rdhex 12) (inSession 0 2)) = some (0x04, 0, 0x00040021) := by decide

/-- P1 step 14, P2 step 21. -/
theorem test_rdraw : seen (exec (.rdraw 3) (inDoneOf 0 emptyA)) = some (0x00, 0x7E42F8EC, 0x20000002) ∧
    seen (exec (.rdraw 4) (inDoneOf 1 abcB)) = some (0x00, 0x9DD8D09C, 0x28000006) := by decide +kernel

/-- P4 step 13, and the first index out of range under B. -/
theorem test_rdraw_errors : seen (exec (.rdraw 4) (inDoneOf 0 emptyA)) = some (0x05, 0, 0x20050002) ∧
    seen (exec (.rdraw 5) (inDoneOf 1 abcB)) = some (0x05, 0, 0x28050006) := by decide

/-- P4 step 6: an illegal word keeps the first error. -/
theorem test_illegal_word_keeps_the_first_error :
    seen (step (upcoming (.command 0x1000000000000161) { inSession 0 2 with core := { (inSession 0 2).core with err := 4 } })) =
      some (0x01, 0, 0x00040021) := by decide

/-! ### Witnesses: for every obligation with hypotheses, a state and operands that meet them together -/

theorem witness_DecodeOfEncodeIsTheCommand : (Instr.rdhex 15).wf = true ∧ (Instr.feed4 0xff 0x00 0x80 0x7f).wf = true := by decide

theorem witness_EncodeOfDecodeIsTheWord : decode 0x3100000000000004 = some (.rdraw 4) := by decide

theorem witness_AtMostOneRowSpellsAWord :
    ∃ r, opcodeMap[7]? = some r ∧ r.spells 0x1000000000000061 = true ∧ r.mnemonic = .feed1 := ⟨_, rfl, by decide, rfl⟩

theorem witness_AssembledLineIsTheCommand : (Instr.feed2 0x61 0x62).wf = true := by decide

theorem witness_StepRunsTheDecodedCommand :
    (upcoming (.command 0x0400000000000000) State.reset).pending = [.command 0x0400000000000000] ∧
    decode 0x0400000000000000 = some .rdstat := by decide

/-- Each reason a word is illegal, and the failing word issued in each of the three phases. -/
theorem witness_IllegalExactlyOutsideTheFormats :
    ([0x0700000000000000, 0x0000000000000001, 0x1000000000000100, 0x1100000000010000, 0x1200000001000000,
      0x1300000100000000, 0x3000000000000010] : List Word64).all (fun w => decode w == none) = true ∧
    [State.reset, inSession 0 0, inDoneOf 0 emptyA].all (fun s =>
      decide ((upcoming (.command 0x0700000000000000) s).pending = [.command 0x0700000000000000]) &&
      decide ((upcoming (.command 0x0700000000000000) s).core.phase ≠ 3)) = true := by decide

theorem witness_ResetSetsEveryRegister : (upcoming .reset (inDoneOf 1 abcB)).pending = [.reset] := by decide

theorem witness_PortStopsWithoutAnAdmittedCommand : State.reset.pending = [] ∧
    (upcoming (.overlapped 0) State.reset).pending = [.overlapped 0] ∧
    (upcoming (.resetDuring 0) State.reset).pending = [.resetDuring 0] := by decide

/-- The three phases the spec gives, for every statement whose one hypothesis is that the phase is not 3. -/
theorem witness_phases : State.reset.core.phase = 0 ∧ (inSession 1 3).core.phase = 1 ∧ (inDoneOf 1 abcB).core.phase = 2 := by decide

theorem witness_NopChangesNothing : (inSession 1 3).core.phase ≠ 3 ∧
    BitVec.extractLsb' 56 8 (0x0080000000000000 : Word64) = 0x00 ∧ BitVec.extractLsb' 0 56 (0x0080000000000000 : Word64) ≠ 0 := by decide
theorem witness_StartAOpensASession : (inDoneOf 1 abcB).core.phase ≠ 3 ∧
    BitVec.extractLsb' 56 8 (0x0180000000000000 : Word64) = 0x01 ∧ BitVec.extractLsb' 0 56 (0x0180000000000000 : Word64) ≠ 0 := by decide
theorem witness_StartBOpensASession : (inSession 0 4).core.phase ≠ 3 ∧
    BitVec.extractLsb' 56 8 (0x0280000000000000 : Word64) = 0x02 ∧ BitVec.extractLsb' 0 56 (0x0280000000000000 : Word64) ≠ 0 := by decide
theorem witness_WipeLeavesTheResetState : (inDoneOf 0 emptyA).core.phase ≠ 3 ∧
    BitVec.extractLsb' 56 8 (0x0380000000000000 : Word64) = 0x03 ∧ BitVec.extractLsb' 0 56 (0x0380000000000000 : Word64) ≠ 0 := by decide
theorem witness_RegisterReadsReturnTheirRegister : State.reset.core.phase ≠ 3 := by decide

theorem witness_ReadsAreIdempotent : IsDigestRead (.rdraw 4) ∧
    (nextOf (exec (.rdraw 4) (inDoneOf 1 abcB))).map (fun t => t.responses) =
      some (⟨0x00, 0x9DD8D09C⟩ :: (inDoneOf 1 abcB).responses) :=
  ⟨⟨4, .inr rfl⟩, by decide +kernel⟩

theorem witness_FailingCommandChangesOnlyErr :
    (nextOf (exec (.feed1 0x61) State.reset)).map (fun t => t.responses) = some [⟨0x02, 0⟩] := by decide

theorem witness_FeedAndFinishNeedASession : NeedsSession .finish ∧ NeedsSession (.feed2 1 2) ∧
    State.reset.core.phase = 0 ∧ (inDoneOf 0 emptyA).core.phase = 2 :=
  ⟨.inr rfl, .inl (by simp [IsFeed, fedBytes]), rfl, rfl⟩

/-- Both lengths, at the first index out of range. -/
theorem witness_DigestReadsFailOutsideDoneOrRange :
    State.reset.core.phase = 0 ∧ (inSession 0 2).core.phase = 1 ∧
    (inDoneOf 0 emptyA).core.phase = 2 ∧ (inDoneOf 0 emptyA).core.dlen.toNat / 4 ≤ 8 ∧
    (inDoneOf 0 emptyA).core.dlen.toNat / 8 ≤ 4 ∧ (inDoneOf 1 abcB).core.dlen.toNat / 4 ≤ 10 ∧
    (inDoneOf 1 abcB).core.dlen.toNat / 8 ≤ 5 := by decide

/-- One command of each of the three kinds, each completing. -/
theorem witness_OnlyTheListedCodesAreReturned : NeedsSession .finish ∧ IsDigestRead (.rdhex 0) ∧
    (¬ NeedsSession .nop ∧ ¬ IsDigestRead .nop) ∧
    (nextOf (exec .finish State.reset)).isSome = true ∧ (nextOf (exec (.rdhex 0) State.reset)).isSome = true ∧
    (nextOf (exec .nop State.reset)).isSome = true :=
  ⟨.inr rfl, ⟨0, .inl rfl⟩, by simp [NeedsSession, IsFeed, fedBytes, IsDigestRead], by decide⟩

/-- A word that clears ERR, and one that does not (an illegal word decodes to nothing). -/
theorem witness_ErrHoldsTheFirstCode :
    (nextOf (step (upcoming (.command 0x0300000000000000) State.reset))).map (fun t => t.responses) = some [⟨0x00, 0⟩] ∧
    decode 0x0300000000000000 = some .wipe ∧ ClearsErr .wipe ∧
    (nextOf (step (upcoming (.command 0x0700000000000000) State.reset))).map (fun t => t.responses) = some [⟨0x01, 0⟩] ∧
    decode 0x0700000000000000 = none :=
  ⟨by decide, by decide, .inr (.inr rfl), by decide, by decide⟩

theorem witness_UndefinedPhaseIsStuck : (upcoming (.command 0) undefinedPhase).core.phase = 3 ∧
    (upcoming (.command 0) undefinedPhase).pending = [.command 0] := by decide

/-- At fill 0, at fill 62 and at fill 63, where the block is compressed. -/
theorem witness_Feed1AbsorbsOneByte : decode 0x10000000000000FF = some (.feed1 0xFF) ∧
    [0, 62, 63].map (fun n => ((inSession 0 n).core.phase, (inSession 0 n).core.fill)) = [(1, 0), (1, 62), (1, 63)] := by decide

theorem witness_LongerFeedsAreFeed1Repeated : (inSession 1 62).core.phase = 1 := by decide

/-- A FEED4 that reaches 63, and one that reaches 64; under A and under B. -/
theorem witness_FeedFrame : IsFeed (.feed4 1 2 3 4) ∧ (inSession 0 59).core.phase = 1 ∧ (inSession 0 59).core.buf.wf = true ∧
    (inSession 0 59).core.alg = 0 ∧ (inSession 0 59).core.fill + (fedBytes (.feed4 1 2 3 4)).length < 64 ∧
    (inSession 1 60).core.phase = 1 ∧ (inSession 1 60).core.buf.wf = true ∧
    64 ≤ (inSession 1 60).core.fill + (fedBytes (.feed4 1 2 3 4)).length :=
  ⟨by simp [IsFeed, fedBytes], by decide⟩

theorem witness_StreamingEquivalence : (inSession 0 63).core.phase = 1 ∧
    (∀ i ∈ [Instr.feed3 1 2 3], IsFeed i) ∧ (∀ j ∈ [Instr.feed1 1, Instr.feed2 2 3], IsFeed j) ∧
    [Instr.feed3 1 2 3].flatMap fedBytes = [Instr.feed1 1, Instr.feed2 2 3].flatMap fedBytes :=
  ⟨by decide, by simp [IsFeed, fedBytes], by simp [IsFeed, fedBytes], by decide⟩

theorem witness_SourceFeedAgreesWithFeed : Memory.wf [(0, 0x61), (63, 0x62)] = true := by decide

theorem witness_RoundFunctionsBitByBit : 0 < 32 ∧ 31 < 32 := by decide

/-- The first and the last index of each clause. -/
theorem witness_MessageIndexClosedForms : 0 < 16 ∧ 15 < 16 ∧
    [0, 15, 16, 31, 32, 47, 48, 63].map indexA = [0, 15, 1, 12, 5, 2, 0, 9] := by decide +kernel

/-- The first and the last step of each group, of A and of B. -/
theorem witness_RotationsAndConstantsOfA : [0, 15, 16, 31, 32, 47, 48, 63].map rotA = [7, 22, 5, 20, 4, 23, 6, 21] ∧
    16 * 3 + 4 * 3 + 3 = 63 := by decide +kernel

theorem witness_StepAWritesOneRegister : [0, 15, 16, 31, 32, 47, 48, 63].all (fun i => decide (i < 64)) = true := by decide

theorem witness_StepBShiftsTheRegisters : [0, 19, 20, 39, 40, 59, 60, 79].all (fun t => decide (t < 80)) = true := by decide

theorem witness_ScheduleFollowsItsRecurrence : 15 < 16 ∧ 16 ≤ 16 ∧ 79 < 80 := by decide

/-- The last fill with one compression, the first and the last with two. -/
theorem witness_PaddingEndsABlock : [55, 56, 63].map (fun f => f + (padding 0 f 0).length) = [64, 128, 128] := by decide

theorem witness_LengthFieldIsTheBitCount : lengthField 0 3 = [0x18, 0, 0, 0, 0, 0, 0, 0] ∧
    lengthField 1 3 = [0, 0, 0, 0, 0, 0, 0, 0x18] := by decide

/-- V-E3 at byte 3 of the last word of each algorithm. -/
theorem witness_DigestBytesAreTheStateWords : (digestBytes 0 emptyA).toList.getD 15 0 = 0x7e ∧
    (digestBytes 0 emptyA).toList.getD 19 0 = 0 ∧ (digestBytes 1 abcB).toList.getD 19 0 = 0x9d := by decide

theorem witness_HexDigitsAreLowercase : (9 : BitVec 4) ≤ 9 ∧ (9 : BitVec 4) < 10 ∧ hexDigit 15 = hexDigit 15 := by decide

theorem witness_FinishLatchesTheDigestAndWipes : (inSession 1 56).core.phase = 1 ∧ (inSession 1 56).core.buf.wf = true := by decide

/-- "abc" fed to a B session. -/
def abcFed : State :=
  { State.reset with core := { startSession 1 CoreState.reset with buf := [(0, 0x61), (1, 0x62), (2, 0x63)], total := 3 } }

theorem absorbed_abc : Absorbed 1 [0x61, 0x62, 0x63] abcFed.core :=
  ⟨by decide, by decide, by decide, by decide, by decide, by decide⟩

theorem witness_FinishGivesTheDigestOfTheInput : Absorbed 1 [0x61, 0x62, 0x63] abcFed.core := absorbed_abc

/-- The last index in range for each length. -/
theorem witness_RdhexReturnsFourCharacters : decode 0x300000000000000F = some (.rdhex 15) ∧
    (inDoneOf 0 emptyA).core.phase = 2 ∧ (inDoneOf 0 emptyA).core.dlen = 32 ∧ 7 < (inDoneOf 0 emptyA).core.dlen.toNat / 4 ∧
    (inDoneOf 1 abcB).core.phase = 2 ∧ (inDoneOf 1 abcB).core.dlen = 40 ∧ 9 < (inDoneOf 1 abcB).core.dlen.toNat / 4 := by decide

theorem witness_RdrawReturnsFourBytes : decode 0x310000000000000F = some (.rdraw 15) ∧
    (inDoneOf 0 emptyA).core.phase = 2 ∧ (inDoneOf 0 emptyA).core.dlen = 32 ∧ 3 < (inDoneOf 0 emptyA).core.dlen.toNat / 8 ∧
    (inDoneOf 1 abcB).core.phase = 2 ∧ (inDoneOf 1 abcB).core.dlen = 40 ∧ 4 < (inDoneOf 1 abcB).core.dlen.toNat / 8 := by decide

theorem witness_RdrawAfterFinishIsTheFinalWord :
    ((inDoneOf 0 emptyA).core.phase = 2 ∧ (inDoneOf 0 emptyA).core.dlen = hexLength (inDoneOf 0 emptyA).core.alg ∧
      (inDoneOf 0 emptyA).core.dg = digestBytes (inDoneOf 0 emptyA).core.alg emptyA ∧ (inDoneOf 0 emptyA).core.alg = 0) ∧
    ((inDoneOf 1 abcB).core.phase = 2 ∧ (inDoneOf 1 abcB).core.dlen = hexLength (inDoneOf 1 abcB).core.alg ∧
      (inDoneOf 1 abcB).core.dg = digestBytes (inDoneOf 1 abcB).core.alg abcB ∧ (inDoneOf 1 abcB).core.alg = 1) := by decide

theorem inv_of_done_A : (inDoneOf 0 emptyA).core.Inv :=
  ⟨by decide, by decide, by decide, by decide, by decide, by decide, by decide, by decide, by decide⟩

theorem inv_of_abc : abcFed.Inv :=
  ⟨⟨by decide, by decide, by decide, by decide, by decide, by decide, by decide, by decide, by decide⟩, by decide⟩

theorem witness_DigestLengthInDone : (inDoneOf 0 emptyA).core.Inv ∧ (inDoneOf 0 emptyA).core.phase = 2 ∧
    seen (exec (.rdhex 7) (inDoneOf 0 emptyA)) = some (0x00, 0x65373234, 0x20000002) :=
  ⟨inv_of_done_A, by decide, by decide +kernel⟩

theorem witness_StepKeepsTheInvariant : (upcoming (.command 0x2000000000000000) abcFed).Inv ∧
    (nextOf (step (upcoming (.command 0x2000000000000000) abcFed))).isSome = true :=
  ⟨⟨inv_of_abc.core, by decide⟩, by decide +kernel⟩

theorem witness_StartBeginsAnEmptyHistory : (inDoneOf 0 emptyA).core.phase ≠ 3 := by decide

theorem witness_FeedExtendsTheHistory : IsFeed (.feed1 0x64) ∧ Absorbed 1 [0x61, 0x62, 0x63] abcFed.core :=
  ⟨by simp [IsFeed, fedBytes], absorbed_abc⟩

theorem witness_OtherCommandsKeepTheHistory : Absorbed 1 [0x61, 0x62, 0x63] abcFed.core ∧
    (¬ NeedsSession (.rdhex 0) ∧ ¬ ClearsErr (.rdhex 0)) ∧
    (upcoming (.command 1) abcFed).pending = [.command 1] ∧ decode 1 = none :=
  ⟨absorbed_abc, by simp [NeedsSession, IsFeed, fedBytes, ClearsErr], by decide, by decide⟩

/-- A step that moves the phase by a command, and one that moves it by reset. -/
theorem witness_OnlySessionCommandsMoveThePhase :
    (nextOf (step (upcoming (.command 0x0100000000000000) State.reset))).map (fun t => t.core.phase) = some 1 ∧
    (upcoming (.command 0x0100000000000000) State.reset).core.phase = 0 ∧
    (nextOf (step (upcoming .reset (inSession 0 1)))).map (fun t => t.core.phase) = some 0 ∧
    (upcoming .reset (inSession 0 1)).core.phase = 1 := by decide

theorem witness_OnlyFinishRevealsHOrBuf : (Instr.feed1 1) ≠ .finish ∧
    { inSession 0 0 with core := { (inSession 0 0).core with h := emptyA, buf := [(5, 9)] } } ≠ inSession 0 0 := by decide

/-- Two sessions at fill 3 that differ in the byte at 3. -/
theorem witness_StaleBytesAreUnobservable :
    SameButStale abcFed.core { abcFed.core with buf := [(0, 0x61), (1, 0x62), (2, 0x63), (3, 0x64)] } ∧
    abcFed.core.buf.get 3 ≠ Memory.get [(0, 0x61), (1, 0x62), (2, 0x63), (3, 0x64)] 3 ∧ SamePort abcFed abcFed :=
  ⟨⟨by decide, by decide, by decide, by decide⟩, by decide, rfl, rfl, rfl⟩

theorem witness_EveryCommandIsAnswered : (upcoming (.command 0x0700000000000000) abcFed).Inv ∧
    (upcoming (.command 0x0700000000000000) abcFed).pending = [.command 0x0700000000000000] :=
  ⟨⟨inv_of_abc.core, by decide⟩, by decide⟩

/-- A step with an error, and one without. -/
theorem witness_FaultBitRecordsEveryError :
    (nextOf (step (upcoming (.command 0x2000000000000000) State.reset))).map (fun t => t.faultSeen) = some true ∧
    (nextOf (step (upcoming (.command 0x0000000000000000) State.reset))).map (fun t => t.faultSeen) = some false := by decide

theorem witness_InstancesShareNothing : ∃ q, Platform.step 1 ⟨[State.reset, upcoming (.command 0) State.reset]⟩ = .next q :=
  ⟨_, rfl⟩

/-- A string of one whole slice and a rest. -/
theorem witness_FeedStrFeedsTheString : Absorbed 1 [0x61, 0x62, 0x63] abcFed.core ∧
    0 < [0x61, 0x62, 0x63, 0x64, 0x65].length / 4 ∧ [0x61, 0x62, 0x63, 0x64, 0x65].length % 4 ≠ 0 :=
  ⟨absorbed_abc, by decide, by decide⟩

theorem witness_DigestPseudoInstructionReturnsTheHexDigest :
    (State.mk (inSession 0 5).core (issue (digestCommands 1 [0x61, 0x62, 0x63]) ++ [.reset]) [] false).core.phase ≠ 3 := by decide

end Sys2Proof.Tests
end

section
/-! The port, forwards: what one step does with the host's next action, and a command word with its decoding. -/

namespace Sys2Proof.Machine

/-- A step takes the host's next action, the actions after it staying pending (R7, R93). -/
theorem step_of_pending {s : State} {a : HostAction} {rest : List HostAction} (hp : s.pending = a :: rest) :
    step s = act a { s with pending := rest } := by
  rw [step, hp]

/-- A word that decodes runs the command it decodes to (R117). -/
theorem act_command_of_decode {w : Word64} {i : Instr} (hd : decode w = some i) (s : State) :
    act (.command w) s = exec i s := by
  rw [act, runCommand, hd]

/-- Settles O7: the step takes the word off the port, and the port decodes the word and runs it. -/
theorem stepRunsTheDecodedCommand : Obligations.StepRunsTheDecodedCommand := by
  intro s w rest i hp hd
  rw [step_of_pending hp, act_command_of_decode hd]

end Sys2Proof.Machine
end

section
/-! The invariant of the machine (spec/10_state.md R53): the core of every effect keeps it, and so does every step. -/

namespace Sys2Proof.Machine

@[simp] theorem finishedCore_phase (c : CoreState) : (finishedCore c).phase = 2 := rfl
@[simp] theorem finishedCore_alg (c : CoreState) : (finishedCore c).alg = c.alg := absorbedAll_alg _ _ _
@[simp] theorem finishedCore_h (c : CoreState) : (finishedCore c).h = StateWords.zero := rfl
@[simp] theorem finishedCore_buf (c : CoreState) : (finishedCore c).buf = [] := rfl
@[simp] theorem finishedCore_total (c : CoreState) : (finishedCore c).total = 0 := rfl
@[simp] theorem finishedCore_dlen (c : CoreState) : (finishedCore c).dlen = hexLength c.alg :=
  congrArg hexLength (absorbedAll_alg _ _ _)
@[simp] theorem finishedCore_err (c : CoreState) : (finishedCore c).err = c.err := by
  rw [finishedCore, latchDigest_err, absorbedAll_rest]
theorem finishedCore_dg (c : CoreState) : (finishedCore c).dg =
    digestBytes c.alg (absorbedAll (padding c.alg c.fill c.total) c.fill c).h := by
  rw [finishedCore, latchDigest_dg, absorbedAll_alg]

/-- Under A a FEED leaves H[4] (R43). -/
theorem fedCore_h4 (bytes : List Byte) {c : CoreState} (ha : c.alg = 0) : (fedCore bytes c).h.h4 = c.h.h4 :=
  absorbedAll_h4 bytes c.fill c ha

/-- Beyond the 16 bytes of an A digest the latch holds zeros (R47). -/
theorem digestBytes_A_drop (h : StateWords) : (digestBytes 0 h).toList.drop 16 = [0, 0, 0, 0] := by
  refine List.ext_getElem (by simp) fun k hk _ => ?_
  have hk : k < 4 := by simp at hk; omega
  have hzero := digestBytes_getD 0 h (16 + k) (by omega)
  rw [if_pos rfl, if_neg (by omega), List.getD_eq_getElem _ _ (by simp; omega)] at hzero
  rw [List.getElem_drop, hzero]
  interval_cases k <;> rfl

theorem initialWords_A_h4 : (initialWords 0).h4 = 0 := rfl

theorem CoreState.Inv.of_reset : CoreState.reset.Inv where
  bufWf := rfl
  phaseLegal := by decide
  idleOrDoneWiped := fun _ => ⟨rfl, rfl, rfl⟩
  idleAlg := fun _ => rfl
  latchEmpty := fun _ => ⟨rfl, rfl⟩
  absorbH4 := fun _ => rfl
  doneLength := fun h => absurd h (by decide)
  doneLatchA := fun _ => rfl
  errCodes := by decide

theorem CoreState.Inv.of_startSession (alg : BitVec 1) (c : CoreState) : (startSession alg c).Inv where
  bufWf := rfl
  phaseLegal := by simp
  idleOrDoneWiped := fun h => absurd rfl h
  idleAlg := fun h => absurd h (by simp)
  latchEmpty := fun _ => ⟨rfl, rfl⟩
  absorbH4 := fun h => by rw [startSession_h, show alg = 0 from h, initialWords_A_h4]
  doneLength := fun h => absurd h (by simp)
  doneLatchA := fun _ => rfl
  errCodes := by simp

/-- A FEED in ABSORB keeps the invariant: it writes BUF, H and TOTAL only, inside the buffer and, under A, not H[4]. -/
theorem CoreState.Inv.of_fedCore {c : CoreState} (hc : c.Inv) (hp : c.phase = 1) (bytes : List Byte) :
    (fedCore bytes c).Inv where
  bufWf := (fedCore_stream hc.bufWf).1
  phaseLegal := by simp [hp]
  idleOrDoneWiped := fun h => absurd hp (by simpa using h)
  idleAlg := fun h => absurd h (by simp [hp])
  latchEmpty := fun _ => by simpa using hc.latchEmpty (by simp [hp])
  absorbH4 := fun ha => by
    rw [fedCore_alg] at ha
    rw [fedCore_h4 bytes ha, hc.absorbH4 ha]
  doneLength := fun h => absurd h (by simp [hp])
  doneLatchA := fun ha => by simpa using hc.doneLatchA (by simpa using ha)
  errCodes := by simpa using hc.errCodes

/-- FINISH leaves a wiped core with a latch of the algorithm's length. -/
theorem CoreState.Inv.of_finishedCore {c : CoreState} (hc : c.Inv) : (finishedCore c).Inv where
  bufWf := rfl
  phaseLegal := by simp
  idleOrDoneWiped := fun _ => ⟨rfl, rfl, rfl⟩
  idleAlg := fun h => absurd h (by simp)
  latchEmpty := fun h => absurd rfl h
  absorbH4 := fun _ => rfl
  doneLength := fun _ => by simp
  doneLatchA := fun ha => by
    rw [finishedCore_alg] at ha
    rw [finishedCore_dg, ha, digestBytes_A_drop]
  errCodes := by simpa using hc.errCodes

theorem State.Inv.of_answered {s : State} (hs : s.Inv) {c : CoreState} (hc : c.Inv) (d : Word) :
    (answered s c d).Inv where
  core := hc
  faultBit := by simpa using hs.faultBit

/-- A failure with a code of R380 keeps the invariant. -/
theorem State.Inv.of_failed {s : State} (hs : s.Inv) {e : BitVec 8} (h0 : e ≠ 0) (he : e ≤ eRange) :
    (failed s e).Inv where
  core :=
    { hs.core with
      errCodes := by
        rw [failed_err]
        split
        · exact he
        · exact hs.core.errCodes }
  faultBit := by
    rw [failed_responses, List.any_cons, show (e != statusOk) = true from bne_iff_ne.2 h0]
    rfl

/-- Every effect of a command keeps the invariant. -/
theorem Effect.keeps_inv {i : Instr} {s t : State} (h : Effect i s t) (hs : s.Inv) : t.Inv := by
  cases h with
  | noSession | misuse | notReady | range => exact hs.of_failed (by decide) (by decide)
  | read d => exact hs.of_answered hs.core d
  | startA | startB => exact hs.of_answered (.of_startSession _ _) 0
  | wipe => exact hs.of_answered .of_reset 0
  | fed _ hp => exact hs.of_answered (hs.core.of_fedCore hp _) 0
  | finished => exact hs.of_answered hs.core.of_finishedCore _

/-- The invariant does not speak of the actions still to come. -/
theorem State.Inv.of_pending {s : State} (hs : s.Inv) (rest : List HostAction) : ({ s with pending := rest } : State).Inv :=
  ⟨hs.core, hs.faultBit⟩

/-- Settles O48: the reset core meets each clause by its values, and no response has been delivered. -/
theorem resetMeetsTheInvariant : Obligations.ResetMeetsTheInvariant :=
  ⟨.of_reset, rfl⟩

/-- Settles O49: a step is the effect of a command, an illegal word's failure or a reset, and each keeps the invariant. -/
theorem stepKeepsTheInvariant : Obligations.StepKeepsTheInvariant := by
  intro s t hs h
  obtain ⟨w, rest, i, -, -, he⟩ | ⟨w, rest, -, -, -, rfl⟩ | ⟨rest, -, rfl⟩ := step_cases h
  · exact (exec_effect he).keeps_inv (hs.of_pending rest)
  · exact (hs.of_pending rest).of_failed (by decide) (by decide)
  · exact ⟨.of_reset, hs.faultBit⟩

end Sys2Proof.Machine
end

section
/-! The history of a session (spec/10_state.md R53 (i), (ii)): a session starts with none, and a FEED extends it by its bytes. -/

namespace Sys2Proof.Machine

/-- A session just started has absorbed nothing (R351, R352). -/
theorem Absorbed.of_startSession (alg : BitVec 1) (c : CoreState) : Absorbed alg [] (startSession alg c) :=
  ⟨rfl, rfl, rfl, rfl, rfl, rfl⟩

/-- Feeding extends the history (R151): the blocks and the tail of the whole input are those of the old tail and the new bytes. -/
theorem Absorbed.of_fedCore {alg : BitVec 1} {input : List Byte} {c : CoreState} (hc : Absorbed alg input c)
    (bytes : List Byte) : Absorbed alg (input ++ bytes) (fedCore bytes c) := by
  obtain ⟨hwf, hwords, hvalid⟩ := fedCore_stream (bytes := bytes) hc.bufWf
  refine ⟨hwf, by simp [hc.absorbing], by simp [hc.tag], ?_, ?_, ?_⟩
  · rw [fedCore_total, hc.counted, List.length_append, BitVec.ofNat_add]
  · rw [hwords, hc.tag, hc.words, hc.valid, referenceWords, referenceWords, completeBlocks_append input, compressBlocks_append]
  · rw [hvalid, hc.valid, ← tailBytes_append]

/-- Settles O50: outside PHASE = 3 either START answers with a session just started. -/
theorem startBeginsAnEmptyHistory : Obligations.StartBeginsAnEmptyHistory := fun _ h3 =>
  ⟨⟨_, inAnyPhase_ok h3 _, .of_startSession 0 _⟩, ⟨_, inAnyPhase_ok h3 _, .of_startSession 1 _⟩⟩

/-- Settles O51: in ABSORB a FEED completes and leaves the core that has absorbed its bytes too. -/
theorem feedExtendsTheHistory : Obligations.FeedExtendsTheHistory := fun i _ _ _ hi hs =>
  ⟨_, exec_feed_absorb hi hs.absorbing, hs.of_fedCore (fedBytes i)⟩

end Sys2Proof.Machine
end

section
/-! Two machines side by side: what a relation between cores must satisfy for every command to answer alike on
both, and the two relations it is used for (spec/10_state.md R43, R44, ID3). -/

namespace Sys2Proof.Machine

/-- Both results go on, in states that R relates, or both stop with the same fault. -/
def Alike (R : State → State → Prop) (r q : Result) : Prop :=
  (∃ s' t', r = .next s' ∧ q = .next t' ∧ R s' t') ∨ (∃ f, r = .fault f ∧ q = .fault f)

/-- Machines with related cores and the same port. -/
def Related (C : CoreState → CoreState → Prop) (s t : State) : Prop := C s.core t.core ∧ SamePort s t

/-- A relation between cores that differ at most in H and BUF, kept by every way a command but FINISH changes a core. -/
structure Indistinguishable (C : CoreState → CoreState → Prop) : Prop where
  rest : ∀ {c d}, C c d → c = { d with h := c.h, buf := c.buf }
  withErr : ∀ {c d} (e : BitVec 8), C c d → C { c with err := e } { d with err := e }
  fed : ∀ {c d} (bytes : List Byte), C c d → C (fedCore bytes c) (fedCore bytes d)
  reset : C CoreState.reset CoreState.reset
  started : ∀ alg c d, C (startSession alg c) (startSession alg d)

/-- Every register but H and BUF has the same value in both cores. -/
theorem Indistinguishable.registers {C : CoreState → CoreState → Prop} (hC : Indistinguishable C) {c d : CoreState}
    (h : C c d) : c.phase = d.phase ∧ c.alg = d.alg ∧ c.total = d.total ∧ c.dg = d.dg ∧ c.dlen = d.dlen ∧
      c.err = d.err ∧ c.stat = d.stat ∧ hexDigest c = hexDigest d := by
  rw [hC.rest h]
  exact ⟨rfl, rfl, rfl, rfl, rfl, rfl, rfl, rfl⟩

section
variable {C : CoreState → CoreState → Prop} {s t : State}

theorem alike_fault (R : State → State → Prop) (f : Fault) : Alike R (.fault f) (.fault f) := .inr ⟨f, rfl, rfl⟩

theorem Related.answered (h : Related C s t) {c d : CoreState} (hcd : C c d) (x : Word) :
    Alike (Related C) (.next (answered s c x)) (.next (answered t d x)) := by
  obtain ⟨-, hp, hr, hf⟩ := h
  exact .inl ⟨_, _, rfl, rfl, hcd, hp, congrArg (_ :: ·) hr, hf⟩

theorem Related.failed (hC : Indistinguishable C) (h : Related C s t) (e : BitVec 8) :
    Alike (Related C) (.next (failed s e)) (.next (failed t e)) := by
  obtain ⟨hc, hp, hr, -⟩ := h
  obtain ⟨-, -, -, -, -, herr, -, -⟩ := hC.registers hc
  refine .inl ⟨_, _, rfl, rfl, ?_, hp, congrArg (_ :: ·) hr, rfl⟩
  simp only [Machine.failed, herr]
  exact hC.withErr _ hc

theorem Related.inAnyPhase (hC : Indistinguishable C) (h : Related C s t) {k l : Result}
    (hkl : Alike (Related C) k l) : Alike (Related C) (inAnyPhase s k) (inAnyPhase t l) := by
  obtain ⟨hphase, -⟩ := hC.registers h.1
  by_cases h3 : s.core.phase = 3
  · rw [inAnyPhase_three h3, inAnyPhase_three (hphase ▸ h3)]
    exact alike_fault _ _
  · rw [inAnyPhase_ok h3, inAnyPhase_ok (hphase ▸ h3)]
    exact hkl

theorem Related.inAbsorb (hC : Indistinguishable C) (h : Related C s t) {k l : Result}
    (hkl : Alike (Related C) k l) : Alike (Related C) (inAbsorb s k) (inAbsorb t l) := by
  obtain ⟨hphase, -⟩ := hC.registers h.1
  refine h.inAnyPhase hC ?_
  rw [← hphase]
  split
  · exact h.failed hC _
  · split
    · exact h.failed hC _
    · exact hkl

theorem Related.inDone (hC : Indistinguishable C) (h : Related C s t) {k l : Result}
    (hkl : Alike (Related C) k l) : Alike (Related C) (inDone s k) (inDone t l) := by
  obtain ⟨hphase, -⟩ := hC.registers h.1
  refine h.inAnyPhase hC ?_
  rw [← hphase]
  split
  · exact hkl
  · exact h.failed hC _

theorem Related.readGroup (hC : Indistinguishable C) (h : Related C s t) (form : Except Fault (List Byte))
    (groups idx : Nat) : Alike (Related C) (readGroup form groups idx s) (readGroup form groups idx t) := by
  rw [readGroup_def, readGroup_def]
  refine h.inDone hC ?_
  split
  · exact h.failed hC _
  · cases form with
    | ok bytes => exact h.answered h.1 _
    | error f => exact alike_fault _ f

theorem Related.feedCommand (hC : Indistinguishable C) (h : Related C s t) (bytes : List Byte) :
    Alike (Related C) (feedCommand bytes s) (feedCommand bytes t) := by
  refine h.inAbsorb hC ?_
  rw [feed_ok, feed_ok]
  exact h.answered (hC.fed bytes h.1) 0

/-- FINISH is its phase check, then one answer: padding never faults (R303, R311). -/
theorem execFinish_eq (s : State) : execFinish s =
    Machine.inAbsorb s (.next (Machine.answered s (finishedCore s.core) ((finishedCore s.core).dlen.setWidth 32))) := by
  rw [Machine.execFinish, pad_eq]
  rfl

/-- FINISH answers alike where it leaves related cores. -/
theorem Related.execFinish (hC : Indistinguishable C) (h : Related C s t)
    (hfin : C (finishedCore s.core) (finishedCore t.core)) :
    Alike (Related C) (execFinish s) (execFinish t) := by
  obtain ⟨-, -, -, -, hlen, -⟩ := hC.registers hfin
  rw [execFinish_eq, execFinish_eq, hlen]
  exact h.inAbsorb hC (h.answered hfin _)

/-- On machines with indistinguishable cores every command answers alike; FINISH where it leaves related cores. -/
theorem Related.exec (hC : Indistinguishable C) (h : Related C s t) (i : Instr)
    (hfin : i = .finish → C (finishedCore s.core) (finishedCore t.core)) :
    Alike (Related C) (exec i s) (exec i t) := by
  obtain ⟨-, -, htotal, hdg, hdlen, -, hstat, hhex⟩ := hC.registers h.1
  rcases isFeed_or i with hi | rfl | ⟨j, rfl | rfl⟩ | (rfl | rfl | rfl) | rfl | rfl | rfl | rfl
  · rw [exec_feed hi, exec_feed hi]
    exact h.feedCommand hC _
  · exact h.execFinish hC (hfin rfl)
  · simp only [Machine.exec, execRdhex, hhex, hdlen]
    exact h.readGroup hC _ _ _
  · simp only [Machine.exec, execRdraw, hdg, hdlen]
    exact h.readGroup hC _ _ _
  · exact h.inAnyPhase hC (h.answered (hC.started _ _ _) 0)
  · exact h.inAnyPhase hC (h.answered (hC.started _ _ _) 0)
  · exact h.inAnyPhase hC (h.answered hC.reset 0)
  · exact h.inAnyPhase hC (h.answered h.1 0)
  · simp only [Machine.exec, execRdstat, hstat]
    exact h.inAnyPhase hC (h.answered h.1 _)
  · simp only [Machine.exec, execRdcntl, htotal]
    exact h.inAnyPhase hC (h.answered h.1 _)
  · simp only [Machine.exec, execRdcnth, htotal]
    exact h.inAnyPhase hC (h.answered h.1 _)

/-- A command word, illegal ones included, is answered alike. -/
theorem Related.runCommand (hC : Indistinguishable C) (h : Related C s t)
    (hfin : C (finishedCore s.core) (finishedCore t.core)) (w : Word64) :
    Alike (Related C) (runCommand w s) (runCommand w t) := by
  unfold Machine.runCommand
  cases decode w with
  | some i => exact h.exec hC i fun _ => hfin
  | none => exact h.inAnyPhase hC (h.failed hC _)

end

/-- Cores that differ at most in H and BUF. -/
def SameButWords (c d : CoreState) : Prop := c = { d with h := c.h, buf := c.buf }

/-- Feeding leaves every register but BUF, H and TOTAL. -/
theorem fedCore_rest (bytes : List Byte) (c : CoreState) : fedCore bytes c =
    { c with buf := (fedCore bytes c).buf, h := (fedCore bytes c).h, total := c.total + BitVec.ofNat 64 bytes.length } := by
  simp only [fedCore]
  rw [absorbedAll_rest]

theorem sameButWords_indistinguishable : Indistinguishable SameButWords where
  rest := id
  withErr := fun {c d} e h => by
    unfold SameButWords at h ⊢
    rw [h]
  fed := fun {c d} bytes h => by
    unfold SameButWords at h ⊢
    rw [fedCore_rest bytes c, fedCore_rest bytes d, h]
  reset := rfl
  started := fun _ _ _ => rfl

/-- Cores with the same bytes below the fill have the same valid bytes. -/
theorem SameButStale.fill_eq {c d : CoreState} (h : SameButStale c d) : c.fill = d.fill := by
  rw [h.rest]
  rfl

theorem SameButStale.validBytes_eq {c d : CoreState} (h : SameButStale c d) : c.validBytes = d.validBytes := by
  rw [CoreState.validBytes, CoreState.validBytes, ← h.fill_eq]
  exact List.map_congr_left fun k hk => h.valid k (List.mem_range.1 hk)

theorem SameButStale.refl {c : CoreState} (h : c.buf.wf = true) : SameButStale c c := ⟨h, h, rfl, fun _ _ => rfl⟩

theorem SameButStale.h_eq {c d : CoreState} (h : SameButStale c d) : c.h = d.h := by
  rw [h.rest]

theorem SameButStale.alg_eq {c d : CoreState} (h : SameButStale c d) : c.alg = d.alg := by
  rw [h.rest]

theorem SameButStale.total_eq {c d : CoreState} (h : SameButStale c d) : c.total = d.total := by
  rw [h.rest]

/-- A buffer byte below the fill is read off the valid bytes. -/
theorem get_of_validBytes {c d : CoreState} (hf : c.fill = d.fill) (hv : c.validBytes = d.validBytes) {k : Nat}
    (hk : k < c.fill) : c.buf.get k = d.buf.get k := by
  rw [CoreState.validBytes, CoreState.validBytes, ← hf] at hv
  exact List.map_inj_left.1 hv k (List.mem_range.2 hk)

/-- Feeding reads the valid bytes only: what it compresses and what it leaves below the fill are the same. -/
theorem SameButStale.of_fedCore {c d : CoreState} (h : SameButStale c d) (bytes : List Byte) :
    SameButStale (fedCore bytes c) (fedCore bytes d) := by
  obtain ⟨hwc, hhc, hvc⟩ := fedCore_stream (bytes := bytes) h.wfLeft
  obtain ⟨hwd, hhd, hvd⟩ := fedCore_stream (bytes := bytes) h.wfRight
  have hh : (fedCore bytes c).h = (fedCore bytes d).h := by rw [hhc, hhd, h.alg_eq, h.h_eq, h.validBytes_eq]
  have hv : (fedCore bytes c).validBytes = (fedCore bytes d).validBytes := by rw [hvc, hvd, h.validBytes_eq]
  refine ⟨hwc, hwd, ?_, fun k => get_of_validBytes (by simp [h.fill_eq]) hv⟩
  rw [fedCore_rest bytes c, fedCore_rest bytes d, hh, h.rest]

/-- FINISH latches the digest of the state words compressed with the valid bytes and their padding (R303, R311). -/
theorem finishedCore_of_wf {c : CoreState} (hm : c.buf.wf = true) : finishedCore c = latchDigest
    { c with h := compressBlocks c.alg c.h (completeBlocks (c.validBytes ++ padding c.alg c.fill c.total)) } := by
  obtain ⟨-, hh, -⟩ := absorbedAll_stream (s := padding c.alg c.fill c.total) (fill_lt c) hm
  rw [finishedCore, absorbedAll_rest, hh]
  rfl

/-- FINISH reads the valid bytes only and wipes the buffer: nothing stale is left. -/
theorem SameButStale.finishedCore_eq {c d : CoreState} (h : SameButStale c d) : finishedCore c = finishedCore d := by
  rw [finishedCore_of_wf h.wfLeft, finishedCore_of_wf h.wfRight, h.validBytes_eq, h.fill_eq, h.alg_eq, h.total_eq,
    h.h_eq, h.rest]
  rfl

theorem sameButStale_indistinguishable : Indistinguishable SameButStale where
  rest := fun h => by
    rw [h.rest]
  withErr := fun {c d} e h => ⟨h.wfLeft, h.wfRight, by rw [h.rest], h.valid⟩
  fed := fun bytes h => h.of_fedCore bytes
  reset := .refl rfl
  started := fun _ _ _ => .refl rfl

/-- Settles O54: cores that differ at most in H and BUF are indistinguishable to every command but FINISH. -/
theorem onlyFinishRevealsHOrBuf : Obligations.OnlyFinishRevealsHOrBuf := by
  intro i s t h buf hi ht
  have hts : Related SameButWords t s := by
    rw [ht]
    exact ⟨rfl, rfl, rfl, rfl⟩
  obtain ⟨t', s', het, hes, hcore, hpend, hresp, hfault⟩ | ⟨f, het, hes⟩ :=
    hts.exec sameButWords_indistinguishable i fun hf => absurd hf hi
  · refine .inl ⟨s', t', t'.core.h, t'.core.buf, hes, het, hresp.symm, ?_⟩
    rw [← show t'.core = _ from hcore, ← hpend, ← hresp, ← hfault]
  · exact .inr ⟨f, hes, het⟩

/-- Settles O55: cores that differ at most in stale bytes are indistinguishable to every command, and FINISH
leaves them equal. -/
theorem staleBytesAreUnobservable : Obligations.StaleBytesAreUnobservable := by
  intro s t hc ⟨hp, hr, hf⟩
  cases hs : s.pending with
  | nil =>
    rw [hs] at hp
    exact .inr (.inr ⟨.noCommand, by rw [step, hs], by rw [step, ← hp]⟩)
  | cons a rest =>
    rw [hs] at hp
    rw [step_of_pending hs, step_of_pending hp.symm]
    have hrel : Related SameButStale { s with pending := rest } { t with pending := rest } := ⟨hc, rfl, hr, hf⟩
    cases a with
    | command w =>
      have hfin : SameButStale (finishedCore s.core) (finishedCore t.core) := by
        rw [hc.finishedCore_eq]
        exact .refl rfl
      obtain ⟨s', t', hes, het, hst⟩ | hfault := hrel.runCommand sameButStale_indistinguishable hfin w
      · exact .inl ⟨s', t', hes, het, hst⟩
      · exact .inr (.inl hfault)
    | overlapped w => exact .inr (.inr ⟨.overlappingCommand, rfl, rfl⟩)
    | reset => exact .inl ⟨_, _, rfl, rfl, .refl rfl, rfl, hr, hf⟩
    | resetDuring w => exact .inr (.inr ⟨.resetDuringCommand, rfl, rfl⟩)

end Sys2Proof.Machine
end

section
/-! What a command does to ERR and PHASE (spec/10_state.md R41, R48), read off its effects. -/

namespace Sys2Proof.Machine

/-- The session commands are none of those that need a session, nor digest reads. -/
theorem ClearsErr.not_needsSession {i : Instr} (h : ClearsErr i) : ¬ NeedsSession i := by
  rcases h with rfl | rfl | rfl <;> simp [NeedsSession, IsFeed, fedBytes]

theorem ClearsErr.not_isDigestRead {i : Instr} (h : ClearsErr i) : ¬ IsDigestRead i := by
  rcases h with rfl | rfl | rfl <;> simp [IsDigestRead]

/-- A failure leaves in ERR the first nonzero of its old value and the code (R381). -/
theorem failed_err_of_response {s : State} {e : BitVec 8} {r : Response}
    (hr : (failed s e).responses = r :: s.responses) :
    (failed s e).core.err = if s.core.err = 0 then r.status else s.core.err := by
  cases hr
  rfl

/-- An answer OK whose core has the old ERR leaves the first nonzero of that and 0. -/
theorem answered_err_of_response {s : State} {c : CoreState} {d : Word} {r : Response} (hc : c.err = s.core.err)
    (hr : (answered s c d).responses = r :: s.responses) :
    (answered s c d).core.err = if s.core.err = 0 then r.status else s.core.err := by
  cases hr
  rw [answered_core, hc]
  split
  · assumption
  · rfl

/-- ERR after a command (R48, R389). -/
theorem Effect.err {i : Instr} {s t : State} {r : Response} (h : Effect i s t) (hr : t.responses = r :: s.responses) :
    (ClearsErr i → t.core.err = 0) ∧
    (¬ ClearsErr i → t.core.err = if s.core.err = 0 then r.status else s.core.err) := by
  cases h with
  | noSession h | misuse h => exact ⟨fun hc => absurd h hc.not_needsSession, fun _ => failed_err_of_response hr⟩
  | notReady h | range h => exact ⟨fun hc => absurd h hc.not_isDigestRead, fun _ => failed_err_of_response hr⟩
  | read d _ hc => exact ⟨fun h => absurd h hc, fun _ => answered_err_of_response rfl hr⟩
  | startA h => exact ⟨fun _ => rfl, fun hc => absurd (.inl h) hc⟩
  | startB h => exact ⟨fun _ => rfl, fun hc => absurd (.inr (.inl h)) hc⟩
  | wipe h => exact ⟨fun _ => rfl, fun hc => absurd (.inr (.inr h)) hc⟩
  | fed h =>
    exact ⟨fun hc => absurd (.inl h) hc.not_needsSession, fun _ => answered_err_of_response (fedCore_err _ _) hr⟩
  | finished h =>
    exact ⟨fun hc => absurd (.inr h) hc.not_needsSession, fun _ => answered_err_of_response (finishedCore_err _) hr⟩

/-- PHASE after a command: only the session commands and FINISH move it, and none to 3 (R41). -/
theorem Effect.phase {i : Instr} {s t : State} (h : Effect i s t) :
    (t.core.phase ≠ s.core.phase → ClearsErr i ∨ i = .finish) ∧ t.core.phase ≠ 3 := by
  cases h with
  | noSession _ hp | misuse _ hp | range _ hp => exact ⟨fun h => absurd rfl h, by simp [hp]⟩
  | notReady _ hp => exact ⟨fun h => absurd rfl h, by rcases hp with hp | hp <;> simp [hp]⟩
  | read _ _ _ hp => exact ⟨fun h => absurd rfl h, hp⟩
  | startA h => exact ⟨fun _ => .inl (.inl h), by simp⟩
  | startB h => exact ⟨fun _ => .inl (.inr (.inl h)), by simp⟩
  | wipe h => exact ⟨fun _ => .inl (.inr (.inr h)), by simp⟩
  | fed _ hp => exact ⟨fun h => absurd (fedCore_phase _ _) h, by simp [hp]⟩
  | finished h => exact ⟨fun _ => .inr h, by simp⟩

/-- Settles O22: the word is a command, whose effect says what becomes of ERR, or an illegal word, which fails. -/
theorem errHoldsTheFirstCode : Obligations.ErrHoldsTheFirstCode := by
  intro s t w rest r hpend hstep hr
  obtain ⟨w', rest', i, hp, hd, he⟩ | ⟨w', rest', hp, hd, -, rfl⟩ | ⟨rest', hp, -⟩ := step_cases hstep
  · cases hpend.symm.trans hp
    obtain ⟨hclear, hkeep⟩ := (exec_effect he).err hr
    refine ⟨fun j hj => ?_, fun h => hkeep (h i hd)⟩
    obtain rfl := Option.some.inj (hd.symm.trans hj)
    exact hclear
  · cases hpend.symm.trans hp
    exact ⟨fun _ hj => (nomatch hd.symm.trans hj), fun _ => failed_err_of_response hr⟩
  · exact nomatch hpend.symm.trans hp

/-- Settles O53: a step is the effect of a command, an illegal word's failure, which leaves PHASE, or a reset. -/
theorem onlySessionCommandsMoveThePhase : Obligations.OnlySessionCommandsMoveThePhase := by
  intro s t hstep
  obtain ⟨w, rest, i, hp, hd, he⟩ | ⟨w, rest, hp, hd, h3, rfl⟩ | ⟨rest, hp, rfl⟩ := step_cases hstep
  · obtain ⟨hmove, h3⟩ := (exec_effect he).phase
    exact ⟨fun h => .inr ⟨w, rest, i, hp, hd, hmove h⟩, fun _ => h3⟩
  · exact ⟨fun h => absurd rfl h, fun _ => h3⟩
  · exact ⟨fun _ => .inl ⟨rest, hp⟩, by simp⟩

end Sys2Proof.Machine
end

section
/-! Fixed facts of the state: the reset values, the fields of the STAT word, and H[4] under A
(spec/10_state.md R43, R46, R49, R54). -/

namespace Sys2Proof.Machine

/-- Settles O10: the empty buffer reads 0 at every offset, and the latch is 20 zero bytes. -/
theorem resetStateHoldsTheResetValues : Obligations.ResetStateHoldsTheResetValues :=
  ⟨rfl, rfl, rfl, Memory.get_nil, rfl, fun k => Vector.getElem_replicate k.isLt, rfl, rfl⟩

/-- A field of the STAT word is read off the word's number. -/
theorem stat_extract {c : CoreState} {k n : Nat} {x : BitVec n} (h : c.stat.toNat / 2 ^ k % 2 ^ n = x.toNat) :
    c.stat.extractLsb' k n = x := by
  apply BitVec.eq_of_toNat_eq
  rw [BitVec.extractLsb'_toNat, Nat.shiftRight_eq_div_pow, h]

/-- The formula of R49: the fields shifted to their places and joined make up the view. -/
theorem stat_eq_or (c : CoreState) : c.stat =
    c.phase.setWidth 32 ||| c.alg.setWidth 32 <<< 2 ||| (c.total.extractLsb' 0 6).setWidth 32 <<< 4 |||
      c.err.setWidth 32 <<< 16 ||| c.dlen.setWidth 32 <<< 24 := by
  rw [CoreState.stat, CoreState.fillBits]
  generalize c.phase = phase
  generalize c.alg = alg
  generalize c.total.extractLsb' 0 6 = fill
  generalize c.err = err
  generalize c.dlen = dlen
  refine BitVec.eq_of_getLsbD_eq fun i hi => ?_
  simp only [BitVec.getLsbD_append, BitVec.getLsbD_or, BitVec.getLsbD_shiftLeft, BitVec.getLsbD_setWidth]
  interval_cases i <;> simp [BitVec.getLsbD_of_ge]

/-- Settles O16: each field stands where the number of the STAT word has it. -/
theorem statIsTheViewOfItsFields : Obligations.StatIsTheViewOfItsFields := by
  intro c
  have hn := stat_toNat c
  have hphase := c.phase.isLt
  have halg := c.alg.isLt
  have hfill := fill_lt c
  have herr := c.err.isLt
  have hdlen := c.dlen.isLt
  refine ⟨fill_eq c, stat_eq_or c, stat_extract ?_, stat_extract ?_, stat_extract ?_, ?_, stat_extract ?_,
    stat_extract ?_, stat_extract ?_, stat_extract ?_⟩
  case refine_4 =>
    rw [BitVec.extractLsb'_toNat, Nat.shiftRight_eq_div_pow]
    omega
  case refine_3 | refine_5 | refine_8 =>
    rw [BitVec.ofNat_eq_ofNat, BitVec.toNat_zero]
    omega
  all_goals omega

/-- Settles O37: an A compression works on H[0..3] and writes them back. -/
theorem compressionUnderALeavesH4 : Obligations.CompressionUnderALeavesH4 := fun h blk _ =>
  ⟨compress_A_h4 h blk, rfl⟩

end Sys2Proof.Machine
end

section
/-! The reads and NOP (spec/20_memory.md R90): when they succeed, and that what they answer is read off the core only. -/

namespace Sys2Proof.Machine

section
variable {i : Instr} {s t : State} {d : Word}

/-- A command that leaves the core answers with the data it reads, in the phases the spec gives. -/
theorem inAnyPhase_complete_iff {x : Word} : inAnyPhase s (complete s.core x s) = .next (answered s s.core d) ↔
    s.core.phase ≠ 3 ∧ x = d := by
  by_cases h3 : s.core.phase = 3
  · simp [inAnyPhase_three h3, h3]
  · rw [inAnyPhase_ok h3, complete_eq, and_iff_right h3]
    simp [answered]

/-- A digest read succeeds in DONE and in range, with the four bytes of its group (R313, R314). -/
theorem readGroup_answered_iff {form : Except Fault (List Byte)} {groups idx : Nat} :
    readGroup form groups idx s = .next (answered s s.core d) ↔
      s.core.phase = 2 ∧ idx < groups ∧ ∃ bytes, form = .ok bytes ∧ le32 bytes (4 * idx) = d := by
  constructor
  · intro h
    rcases readGroup_inv h with ⟨-, he⟩ | ⟨-, he⟩ | ⟨hp, hlt, bytes, hform, he⟩
    · simp [answered, failed] at he
    · simp [answered, failed] at he
    · exact ⟨hp, hlt, bytes, hform, by simpa [answered] using he.symm⟩
  · rintro ⟨hp, hlt, bytes, hform, rfl⟩
    exact readGroup_ok hp hlt hform

/-- A read or NOP that leaves the core and answers d does so on every machine with that core. -/
theorem exec_answered_of_core_eq (hn : ¬ NeedsSession i) (hc : ¬ ClearsErr i) (hcore : t.core = s.core)
    (h : exec i s = .next (answered s s.core d)) : exec i t = .next (answered t t.core d) := by
  rcases isFeed_or i with hi | hi | ⟨j, rfl | rfl⟩ | hi | rfl | rfl | rfl | rfl
  · exact absurd (.inl hi) hn
  · exact absurd (.inr hi) hn
  · exact readGroup_answered_iff.2 (hcore ▸ readGroup_answered_iff.1 h)
  · exact readGroup_answered_iff.2 (hcore ▸ readGroup_answered_iff.1 h)
  · exact absurd hi hc
  all_goals exact inAnyPhase_complete_iff.2 (hcore ▸ inAnyPhase_complete_iff.1 h)

/-- A command that neither needs a session nor clears ERR leaves the core where it succeeds. -/
theorem Effect.eq_answered_of_ok (h : Effect i s t) (hn : ¬ NeedsSession i) (hc : ¬ ClearsErr i)
    (hr : t.responses = ⟨0x00, d⟩ :: s.responses) : t = answered s s.core d := by
  cases h with
  | noSession | misuse | notReady | range => simp at hr
  | read x =>
    cases hr
    rfl
  | startA hi => exact absurd (.inl hi) hc
  | startB hi => exact absurd (.inr (.inl hi)) hc
  | wipe hi => exact absurd (.inr (.inr hi)) hc
  | fed hi => exact absurd (.inl hi) hn
  | finished hi => exact absurd (.inr hi) hn

end

/-- Settles O17: a success leaves the core, and the data is read off the core only. -/
theorem readsAreIdempotent : Obligations.ReadsAreIdempotent := by
  intro i s t d hi h hr
  have hn : ¬ NeedsSession i := by
    rcases hi with rfl | rfl | rfl | rfl | ⟨j, rfl | rfl⟩ <;> simp [NeedsSession, IsFeed, fedBytes]
  have hc : ¬ ClearsErr i := by
    rcases hi with rfl | rfl | rfl | rfl | ⟨j, rfl | rfl⟩ <;> simp [ClearsErr]
  obtain rfl := (exec_effect h).eq_answered_of_ok hn hc hr
  exact ⟨rfl, exec_answered_of_core_eq (s := s) hn hc rfl h⟩

end Sys2Proof.Machine
end

section
/-! The opcode map by mnemonic (spec/30_encoding.md R110 to R116): each row's opcode byte, its operand bits and the
operands it reads. Decoding finds the one row that spells a word, and the operands read and written are inverse. -/

namespace Sys2Proof

/-- The opcode byte `cmd[63:56]` (R110). -/
def opcodeByte (w : Word64) : BitVec 8 := w.extractLsb' 56 8

/-- The opcode of a mnemonic (R115). -/
def opcodeOf : Mnemonic → BitVec 8
  | .nop => 0x00
  | .startA => 0x01
  | .startB => 0x02
  | .wipe => 0x03
  | .rdstat => 0x04
  | .rdcntl => 0x05
  | .rdcnth => 0x06
  | .feed1 => 0x10
  | .feed2 => 0x11
  | .feed3 => 0x12
  | .feed4 => 0x13
  | .finish => 0x20
  | .rdhex => 0x30
  | .rdraw => 0x31

/-- The number of operand bits in the format of a mnemonic: none, n bytes, or the 4-bit index (R112, R113, R114). -/
def operandBits : Mnemonic → Nat
  | .feed1 => 8
  | .feed2 => 16
  | .feed3 => 24
  | .feed4 => 32
  | .rdhex | .rdraw => 4
  | _ => 0

/-- The command of a mnemonic with the operands a word holds. -/
def readOperands (w : Word64) : Mnemonic → Instr
  | .nop => .nop
  | .startA => .startA
  | .startB => .startB
  | .wipe => .wipe
  | .rdstat => .rdstat
  | .rdcntl => .rdcntl
  | .rdcnth => .rdcnth
  | .feed1 => .feed1 (operandByte w 0)
  | .feed2 => .feed2 (operandByte w 0) (operandByte w 1)
  | .feed3 => .feed3 (operandByte w 0) (operandByte w 1) (operandByte w 2)
  | .feed4 => .feed4 (operandByte w 0) (operandByte w 1) (operandByte w 2) (operandByte w 3)
  | .finish => .finish
  | .rdhex => .rdhex (operandIndex w)
  | .rdraw => .rdraw (operandIndex w)

/-- The row of a mnemonic, put together from its format. -/
def rowOf (m : Mnemonic) : Row :=
  ⟨m, opcodeOf m ++ 0#56, BitVec.allOnes 64 <<< operandBits m, fun w => readOperands w m⟩

/-- The mnemonics in the order of the opcode map (R115). -/
def mnemonics : List Mnemonic :=
  [.nop, .startA, .startB, .wipe, .rdstat, .rdcntl, .rdcnth, .feed1, .feed2, .feed3, .feed4, .finish, .rdhex, .rdraw]

theorem mem_mnemonics (m : Mnemonic) : m ∈ mnemonics := by
  cases m <;> decide

/-- The opcode map holds the row of every mnemonic, and no other. -/
theorem opcodeMap_eq : opcodeMap = mnemonics.map rowOf := rfl

theorem mem_opcodeMap_iff {r : Row} : r ∈ opcodeMap ↔ ∃ m, rowOf m = r := by
  rw [opcodeMap_eq, List.mem_map]
  exact exists_congr fun m => and_iff_right (mem_mnemonics m)

theorem operandBits_le (m : Mnemonic) : operandBits m ≤ 32 := by
  cases m <;> decide

theorem rowOf_pattern_toNat (m : Mnemonic) : (rowOf m).pattern.toNat = (opcodeOf m).toNat * 2 ^ 56 := by
  rw [rowOf, toNat_append_add, BitVec.toNat_zero, Nat.add_zero]

theorem opcodeByte_toNat (w : Word64) : (opcodeByte w).toNat = w.toNat / 2 ^ 56 := by
  rw [opcodeByte, BitVec.extractLsb'_toNat, Nat.shiftRight_eq_div_pow]
  omega

theorem rowOf_spells_iff_interval {m : Mnemonic} {w : Word64} : (rowOf m).spells w = true ↔
    (opcodeOf m).toNat * 2 ^ 56 ≤ w.toNat ∧ w.toNat < (opcodeOf m).toNat * 2 ^ 56 + 2 ^ operandBits m := by
  have hdvd : 2 ^ operandBits m ∣ (opcodeOf m).toNat * 2 ^ 56 :=
    (Nat.pow_dvd_pow 2 (by have := operandBits_le m; omega)).mul_left _
  rw [spells_iff _ (operandBits m) rfl (by rw [rowOf_pattern_toNat]; exact Nat.mod_eq_zero_of_dvd hdvd),
    rowOf_pattern_toNat]

/-- The bits between the operands and the opcode are 0 exactly when the low 56 bits hold the operands only. -/
theorem mustBeZero_iff {w : Word64} {k : Nat} (hk : k ≤ 56) : w.extractLsb' k (56 - k) = 0 ↔ w.toNat % 2 ^ 56 < 2 ^ k := by
  have hsplit : w.toNat / 2 ^ k % 2 ^ (56 - k) = w.toNat % 2 ^ 56 / 2 ^ k := by
    rw [← Nat.mod_mul_right_div_self, ← Nat.pow_add, Nat.add_sub_cancel' hk]
  rw [← BitVec.toNat_inj, BitVec.extractLsb'_toNat, Nat.shiftRight_eq_div_pow, hsplit]
  exact Nat.div_eq_zero_iff_lt (Nat.two_pow_pos k)

/-- A row spells the words with its opcode whose must-be-zero bits are 0 (R115, R116). -/
theorem rowOf_spells_iff {m : Mnemonic} {w : Word64} : (rowOf m).spells w = true ↔
    opcodeByte w = opcodeOf m ∧ w.extractLsb' (operandBits m) (56 - operandBits m) = 0 := by
  have hbits := operandBits_le m
  have hpow : 2 ^ operandBits m ≤ 2 ^ 56 := Nat.pow_le_pow_right (by decide) (by omega)
  rw [rowOf_spells_iff_interval, mustBeZero_iff (by omega), ← BitVec.toNat_inj, opcodeByte_toNat]
  omega

theorem nodup_opcodes : (mnemonics.map opcodeOf).Nodup := by
  decide

/-- No two mnemonics share an opcode. -/
theorem opcodeOf_injective : Function.Injective opcodeOf := fun m n h =>
  List.inj_on_of_nodup_map nodup_opcodes (mem_mnemonics m) (mem_mnemonics n) h

/-- Decoding gives the operands of the one row that spells the word. -/
theorem decode_eq_some_iff_row {w : Word64} {i : Instr} :
    decode w = some i ↔ ∃ m, (rowOf m).spells w = true ∧ readOperands w m = i := by
  rw [decode, Option.map_eq_some_iff]
  constructor
  · rintro ⟨r, hfind, rfl⟩
    obtain ⟨m, rfl⟩ := mem_opcodeMap_iff.1 (List.mem_of_find?_eq_some hfind)
    exact ⟨m, List.find?_some (p := fun r : Row => r.spells w) hfind, rfl⟩
  · rintro ⟨m, hm, rfl⟩
    obtain ⟨r, hfind⟩ := Option.isSome_iff_exists.1
      ((List.find?_isSome (p := fun r : Row => r.spells w)).2 ⟨rowOf m, mem_opcodeMap_iff.2 ⟨m, rfl⟩, hm⟩)
    obtain ⟨n, rfl⟩ := mem_opcodeMap_iff.1 (List.mem_of_find?_eq_some hfind)
    have hn : (rowOf n).spells w = true := List.find?_some (p := fun r : Row => r.spells w) hfind
    obtain rfl : n = m :=
      opcodeOf_injective ((rowOf_spells_iff.1 hn).1.symm.trans (rowOf_spells_iff.1 hm).1)
    exact ⟨_, hfind, rfl⟩

/-- A word is illegal when no row spells it (R116). -/
theorem decode_eq_none_iff_row {w : Word64} : decode w = none ↔ ∀ m, ¬ (rowOf m).spells w = true := by
  rw [Option.eq_none_iff_forall_ne_some]
  constructor
  · exact fun h m hm => h _ (decode_eq_some_iff_row.2 ⟨m, hm, rfl⟩)
  · intro h i hi
    obtain ⟨m, hm, -⟩ := decode_eq_some_iff_row.1 hi
    exact h m hm

/-- The word of a command is spelled by the row of its mnemonic. -/
theorem rowOf_spells_encode {i : Instr} (hi : i.wf = true) : (rowOf i.mnemonic).spells (encode i) = true := by
  have hrow : Laws.EncodesInRow.Statement i := by
    open Laws.EncodesInRow in
    cases i with
    | nop => exact nop
    | startA => exact startA
    | startB => exact startB
    | wipe => exact wipe
    | rdstat => exact rdstat
    | rdcntl => exact rdcntl
    | rdcnth => exact rdcnth
    | feed1 b0 => exact feed1 b0
    | feed2 b0 b1 => exact feed2 b0 b1
    | feed3 b0 b1 b2 => exact feed3 b0 b1 b2
    | feed4 b0 b1 b2 b3 => exact feed4 b0 b1 b2 b3
    | finish => exact finish
    | rdhex idx => exact rdhex idx
    | rdraw idx => exact rdraw idx
  obtain ⟨r, hr, hm, hs⟩ := hrow hi
  obtain ⟨m, rfl⟩ := mem_opcodeMap_iff.1 hr
  rwa [← show m = i.mnemonic from hm]

theorem operandByte_eq_of_toNat {w : Word64} {k : Nat} {b : Byte} (h : w.toNat / 2 ^ (8 * k) % 256 = b.toNat) :
    operandByte w k = b :=
  BitVec.eq_of_toNat_eq ((operandByte_toNat w k).trans h)

/-- The operands read from a command's word are the command's. -/
theorem readOperands_encode {i : Instr} (hi : i.wf = true) : readOperands (encode i) i.mnemonic = i := by
  cases i with
  | nop | startA | startB | wipe | rdstat | rdcntl | rdcnth | finish => rfl
  | feed1 | feed2 | feed3 | feed4 =>
    simp only [Instr.mnemonic, readOperands, Instr.feed1.injEq, Instr.feed2.injEq, Instr.feed3.injEq,
      Instr.feed4.injEq]
    repeat' apply And.intro
    all_goals exact operandByte_eq_of_toNat (by simp only [encode_toNat]; omega)
  | rdhex idx | rdraw idx =>
    have hidx : idx < 16 := by simpa [Instr.wf] using hi
    simp only [Instr.mnemonic, readOperands, operandIndex_eq, encode_toNat]
    congr 1
    omega

/-- A command read from a word that its row spells is well formed, and the word is its word. -/
theorem encode_readOperands {m : Mnemonic} {w : Word64} (h : (rowOf m).spells w = true) :
    (readOperands w m).wf = true ∧ encode (readOperands w m) = w := by
  obtain ⟨hlo, hhi⟩ := rowOf_spells_iff_interval.1 h
  constructor
  · cases m with
    | rdhex | rdraw => exact decide_eq_true (by rw [operandIndex_eq]; omega)
    | _ => rfl
  · apply BitVec.eq_of_toNat_eq
    rw [encode_toNat]
    cases m
    all_goals
      simp only [opcodeOf, operandBits, BitVec.ofNat_eq_ofNat, BitVec.toNat_ofNat] at hlo hhi
      simp only [readOperands, operandByte_toNat, operandIndex_eq]
      omega

/-- Decoding and encoding are inverse: a word decodes to a well-formed command exactly when it is its word. -/
theorem decode_eq_some_iff {w : Word64} {i : Instr} : decode w = some i ↔ i.wf = true ∧ encode i = w := by
  rw [decode_eq_some_iff_row]
  constructor
  · rintro ⟨m, hm, rfl⟩
    exact encode_readOperands hm
  · rintro ⟨hi, rfl⟩
    exact ⟨i.mnemonic, rowOf_spells_encode hi, readOperands_encode hi⟩

theorem decode_encode {i : Instr} (hi : i.wf = true) : decode (encode i) = some i :=
  decode_eq_some_iff.2 ⟨hi, rfl⟩

/-- Settles O1: the row of the command's mnemonic spells its word, and the operands read back are the command's. -/
theorem decodeOfEncodeIsTheCommand : Obligations.DecodeOfEncodeIsTheCommand := fun _ hi => decode_encode hi

/-- Settles O2: the operands read from a word that a row spells encode to that word. -/
theorem encodeOfDecodeIsTheWord : Obligations.EncodeOfDecodeIsTheWord := fun _ _ h => decode_eq_some_iff.1 h

/-- Settles O3: a row spells only words with its opcode byte, and no two rows share one. -/
theorem atMostOneRowSpellsAWord : Obligations.AtMostOneRowSpellsAWord := by
  constructor
  · decide
  · intro w r q hr hq hrw hqw
    obtain ⟨m, rfl⟩ := mem_opcodeMap_iff.1 hr
    obtain ⟨n, rfl⟩ := mem_opcodeMap_iff.1 hq
    exact opcodeOf_injective ((rowOf_spells_iff.1 hrw).1.symm.trans (rowOf_spells_iff.1 hqw).1)

end Sys2Proof
end

section
/-! Illegal words (spec/30_encoding.md R116), and the operand bytes of the FEED words (R113). -/

namespace Sys2Proof

/-- A word with a listed opcode is illegal exactly when a must-be-zero bit of its format is set (R116 (b)). -/
theorem decode_eq_none_iff_of_opcode {w : Word64} {m : Mnemonic} (hm : opcodeByte w = opcodeOf m) :
    decode w = none ↔ w.extractLsb' (operandBits m) (56 - operandBits m) ≠ 0 := by
  rw [decode_eq_none_iff_row]
  constructor
  · exact fun h hz => h m (rowOf_spells_iff.2 ⟨hm, hz⟩)
  · intro hnz n hn
    obtain ⟨hopc, hz⟩ := rowOf_spells_iff.1 hn
    obtain rfl := opcodeOf_injective (hm.symm.trans hopc)
    exact hnz hz

/-- A word without a listed opcode is illegal (R116 (a)). -/
theorem decode_eq_none_of_opcode {w : Word64} (h : opcodeByte w ∉ mnemonics.map opcodeOf) : decode w = none :=
  decode_eq_none_iff_row.2 fun m hm =>
    h ((rowOf_spells_iff.1 hm).1 ▸ List.mem_map_of_mem (mem_mnemonics m))

end Sys2Proof

namespace Sys2Proof.Machine

/-- A word that decodes to nothing fails as illegal (R117, R382). -/
theorem failsIllegal_of_decode {w : Word64} (hd : decode w = none) : FailsIllegal w := by
  intro s rest hp h3
  rw [step_of_pending hp, act, runCommand, hd]
  exact inAnyPhase_ok h3 _

/-- Settles O4: by the opcode of the word, which is that of one mnemonic or not listed. -/
theorem illegalExactlyOutsideTheFormats : Obligations.IllegalExactlyOutsideTheFormats := by
  refine ⟨fun w => ?_, fun w => failsIllegal_of_decode⟩
  intro opc
  by_cases hlisted : opc ∈ mnemonics.map opcodeOf
  · obtain ⟨m, -, hm⟩ := List.mem_map.1 hlisted
    rw [decode_eq_none_iff_of_opcode hm.symm, ← hm]
    cases m <;> simp [opcodeOf, operandBits]
  · exact iff_of_true (decode_eq_none_of_opcode hlisted) (.inl hlisted)

/-- A byte joined at bit k, below a multiple of `2^(k+8)`, adds to its number. -/
theorem toNat_or_byte {x : Word64} (b : Byte) {k : Nat} (hk : k ≤ 56) (hx : x.toNat % 2 ^ (k + 8) = 0) :
    (x ||| b.setWidth 64 <<< k).toNat = x.toNat + b.toNat * 2 ^ k := by
  have hlt : b.toNat * 2 ^ k < 2 ^ (k + 8) := by
    rw [Nat.pow_add, Nat.mul_comm]
    exact Nat.mul_lt_mul_of_pos_left b.isLt (Nat.two_pow_pos k)
  have hbyte : (b.setWidth 64 <<< k).toNat = b.toNat * 2 ^ k := by
    rw [BitVec.toNat_shiftLeft, BitVec.toNat_setWidth_of_le (by decide), Nat.shiftLeft_eq]
    exact Nat.mod_eq_of_lt (hlt.trans_le (Nat.pow_le_pow_right (by decide) (by omega)))
  obtain ⟨q, hq⟩ := Nat.dvd_of_mod_eq_zero hx
  rw [BitVec.toNat_or, hbyte, hq, Nat.two_pow_add_eq_or_of_lt hlt]

/-- Four bytes joined below an opcode, B0 lowest (R113). -/
theorem toNat_or_bytes {opc : Word64} (b0 b1 b2 b3 : Byte) (hopc : opc.toNat % 2 ^ 32 = 0) :
    (opc ||| b3.setWidth 64 <<< 24 ||| b2.setWidth 64 <<< 16 ||| b1.setWidth 64 <<< 8 ||| b0.setWidth 64).toNat =
      opc.toNat + (((b3.toNat * 2 ^ 8 + b2.toNat) * 2 ^ 8 + b1.toNat) * 2 ^ 8 + b0.toNat) := by
  have h3 := toNat_or_byte (x := opc) b3 (k := 24) (by decide) hopc
  have h2 := toNat_or_byte b2 (k := 16) (by decide) (by rw [h3]; omega)
  have h1 := toNat_or_byte b1 (k := 8) (by decide) (by rw [h2, h3]; omega)
  have h0 := toNat_or_byte b0 (k := 0) (by decide) (by rw [h1, h2, h3]; omega)
  rw [BitVec.shiftLeft_zero] at h0
  rw [h0, h1, h2, h3]
  omega

theorem encode_feed4 (b0 b1 b2 b3 : Byte) : encode (.feed4 b0 b1 b2 b3) =
    0x1300000000000000 ||| b3.setWidth 64 <<< 24 ||| b2.setWidth 64 <<< 16 ||| b1.setWidth 64 <<< 8 ||| b0.setWidth 64 :=
  BitVec.eq_of_toNat_eq (by rw [encode_toNat, toNat_or_bytes b0 b1 b2 b3 rfl]; rfl)

theorem encode_feed3 (b0 b1 b2 : Byte) : encode (.feed3 b0 b1 b2) =
    0x1200000000000000 ||| b2.setWidth 64 <<< 16 ||| b1.setWidth 64 <<< 8 ||| b0.setWidth 64 := by
  have h := toNat_or_bytes (opc := 0x1200000000000000) b0 b1 b2 0 rfl
  exact BitVec.eq_of_toNat_eq (by simp only [encode_toNat]; simpa using h.symm)

theorem encode_feed2 (b0 b1 : Byte) : encode (.feed2 b0 b1) =
    0x1100000000000000 ||| b1.setWidth 64 <<< 8 ||| b0.setWidth 64 := by
  have h := toNat_or_bytes (opc := 0x1100000000000000) b0 b1 0 0 rfl
  exact BitVec.eq_of_toNat_eq (by simp only [encode_toNat]; simpa using h.symm)

/-- Settles O26: a word decodes to a FEED exactly when it is its word, whose bytes are joined at their places. -/
theorem feedOperandsAreTheLowBytes : Obligations.FeedOperandsAreTheLowBytes := by
  intro w b0 b1 b2 b3
  simp only [decode_eq_some_iff, Instr.wf, true_and, eq_comm (b := w), encode_feed2, encode_feed3, encode_feed4]

end Sys2Proof.Machine
end

section
/-! Every command is answered (spec/30_encoding.md R111, spec/70_reset_and_hazards.md R445): in a state that meets
the invariant each command goes on, by one response with a code of its row of R380. -/

namespace Sys2Proof.Machine

theorem NeedsSession.not_isDigestRead {i : Instr} (h : NeedsSession i) : ¬ IsDigestRead i := by
  rintro ⟨j, rfl | rfl⟩ <;> simp [NeedsSession, IsFeed, fedBytes] at h

/-- Where a command goes on, it answers OK or fails with a code its row of R380 lists. -/
theorem Effect.answered_or_failed {i : Instr} {s t : State} (h : Effect i s t) :
    (∃ c d, t = answered s c d) ∨
    ∃ e, t = failed s e ∧ (NeedsSession i ∧ (e = 0x02 ∨ e = 0x03) ∨ IsDigestRead i ∧ (e = 0x04 ∨ e = 0x05)) := by
  cases h with
  | noSession h => exact .inr ⟨_, rfl, .inl ⟨h, .inl rfl⟩⟩
  | misuse h => exact .inr ⟨_, rfl, .inl ⟨h, .inr rfl⟩⟩
  | notReady h => exact .inr ⟨_, rfl, .inr ⟨h, .inl rfl⟩⟩
  | range h => exact .inr ⟨_, rfl, .inr ⟨h, .inr rfl⟩⟩
  | read | startA | startB | wipe | fed | finished => exact .inl ⟨_, _, rfl⟩

/-- Settles O21: a command answers OK or fails with a code of its class, and no command is in both classes. -/
theorem onlyTheListedCodesAreReturned : Obligations.OnlyTheListedCodesAreReturned := by
  intro i s t h
  obtain ⟨c, d, rfl⟩ | ⟨e, rfl, ⟨hi, he⟩ | ⟨hi, he⟩⟩ := (exec_effect h).answered_or_failed
  · exact ⟨_, rfl, fun _ => .inl rfl, fun _ => .inl rfl, fun _ _ => rfl⟩
  · exact ⟨_, rfl, fun _ => .inr he, fun hr => absurd hr hi.not_isDigestRead, fun hn => absurd hi hn⟩
  · exact ⟨_, rfl, fun hn => absurd hi hn.not_isDigestRead, fun _ => .inr he, fun _ hn => absurd hi hn⟩

section
variable {s : State}

/-- In a phase the spec gives, a phase check of FEED and FINISH fails or goes on as the command does. -/
theorem inAbsorb_next {k : Result} (h3 : s.core.phase ≠ 3) (hk : ∃ t, k = .next t) : ∃ t, inAbsorb s k = .next t := by
  rcases phase_cases s.core.phase with hp | hp | hp | hp
  · exact ⟨_, inAbsorb_idle hp k⟩
  · rwa [inAbsorb_absorb hp]
  · exact ⟨_, inAbsorb_done hp k⟩
  · exact absurd hp h3

/-- A digest read goes on where, in DONE, the latch holds the bytes it reads. -/
theorem readGroup_next {form : Except Fault (List Byte)} (h3 : s.core.phase ≠ 3)
    (hform : s.core.phase = 2 → ∃ bytes, form = .ok bytes) (groups idx : Nat) :
    ∃ t, readGroup form groups idx s = .next t := by
  rw [readGroup_def]
  rcases phase_cases s.core.phase with hp | hp | hp | hp
  · exact ⟨_, inDone_other (.inl hp) _⟩
  · exact ⟨_, inDone_other (.inr hp) _⟩
  · obtain ⟨bytes, rfl⟩ := hform hp
    rw [inDone_done hp]
    split <;> exact ⟨_, rfl⟩
  · exact absurd hp h3

theorem hexLength_bytes_le (alg : BitVec 1) : (hexLength alg).toNat / 2 ≤ 20 := by
  revert alg
  decide

/-- A core that meets the invariant is never stuck on a command (R445). -/
theorem CoreState.Inv.exec_next (hc : s.core.Inv) (i : Instr) : ∃ t, exec i s = .next t := by
  have h3 := hc.phaseLegal
  have hlatch : s.core.phase = 2 → s.core.dlen.toNat / 2 ≤ 20 := fun hp => by
    rw [hc.doneLength hp]
    exact hexLength_bytes_le _
  rcases isFeed_or i with hi | rfl | ⟨j, rfl | rfl⟩ | (rfl | rfl | rfl) | rfl | rfl | rfl | rfl
  · rw [exec_feed hi]
    exact inAbsorb_next h3 ⟨_, by rw [feed_ok]; rfl⟩
  · change ∃ t, execFinish s = .next t
    rw [execFinish_eq]
    exact inAbsorb_next h3 ⟨_, rfl⟩
  · exact readGroup_next h3 (fun hp => ⟨_, hexDigest_ok (hlatch hp)⟩) _ _
  · exact readGroup_next h3 (fun hp => ⟨_, latchRead_ok _ (hlatch hp)⟩) _ _
  all_goals exact ⟨_, inAnyPhase_ok h3 _⟩

end

/-- Settles O56: a word that decodes runs a command, which goes on, and any other fails as illegal. -/
theorem everyCommandIsAnswered : Obligations.EveryCommandIsAnswered := by
  intro s w rest hs hp
  cases hd : decode w with
  | none => exact ⟨_, _, failsIllegal_of_decode hd s rest hp hs.core.phaseLegal, rfl, rfl, by decide, fun _ => rfl⟩
  | some i =>
    obtain ⟨t, he⟩ := (hs.of_pending rest).core.exec_next i
    have hstep : step s = .next t := by
      rw [step_of_pending hp, act_command_of_decode hd, he]
    obtain ⟨c, d, rfl⟩ | ⟨e, rfl, hcode⟩ := (exec_effect he).answered_or_failed
    · exact ⟨_, _, hstep, rfl, rfl, (by decide : (0x00 : BitVec 8) ≤ 0x05), fun h => absurd rfl h⟩
    · refine ⟨_, _, hstep, rfl, rfl, ?_, fun _ => rfl⟩
      obtain ⟨-, rfl | rfl⟩ | ⟨-, rfl | rfl⟩ := hcode <;> decide

end Sys2Proof.Machine
end

section
/-! FEEDSTR (spec/30_encoding.md R119), and runs of commands that are all answered OK. -/

namespace Sys2Proof.Machine

/-- From a core c the commands run one after another, all answered OK with the data of the list, and leave d. -/
inductive Answers : CoreState → List Instr → List Word → CoreState → Prop where
  | nil (c : CoreState) : Answers c [] [] c
  | cons {c d e : CoreState} {i : Instr} {is : List Instr} {x : Word} {xs : List Word}
      (hi : ∀ s : State, s.core = c → exec i s = .next (answered s d x)) (his : Answers d is xs e) :
      Answers c (i :: is) (x :: xs) e

theorem Answers.append {c d e : CoreState} {is js : List Instr} {xs ys : List Word} (h : Answers c is xs d)
    (hj : Answers d js ys e) : Answers c (is ++ js) (xs ++ ys) e := by
  induction h with
  | nil => exact hj
  | cons hi _ ih => exact .cons hi (ih hj)

theorem Answers.one {c d : CoreState} {i : Instr} {x : Word}
    (hi : ∀ s : State, s.core = c → exec i s = .next (answered s d x)) : Answers c [i] [x] d :=
  .cons hi (.nil d)

theorem Answers.execAll {c d : CoreState} {is : List Instr} {xs : List Word} (h : Answers c is xs d) :
    ∀ {s : State}, s.core = c → ∃ t, execAll is s = .next t ∧ t.core = d := by
  induction h with
  | nil => exact fun hs => ⟨_, rfl, hs⟩
  | cons hi _ ih =>
    intro s hs
    rw [Machine.execAll, hi s hs]
    exact ih rfl

/-- Feeding nothing leaves the core. -/
theorem fedCore_nil (c : CoreState) : fedCore [] c = c := by
  simp [fedCore, absorbedAll]

/-- In ABSORB a list of FEED commands feeds the bytes of all of them, each answered OK with 0. -/
theorem Answers.of_feeds {is : List Instr} : ∀ {c : CoreState}, (∀ i ∈ is, IsFeed i) → c.phase = 1 →
    Answers c is (List.replicate is.length 0) (fedCore (is.flatMap fedBytes) c) := by
  induction is with
  | nil =>
    intro c _ _
    rw [List.flatMap_nil, fedCore_nil]
    exact .nil c
  | cons i is ih =>
    intro c his hc
    obtain ⟨hi, his⟩ := List.forall_mem_cons.1 his
    rw [List.flatMap_cons, ← fedCore_append]
    exact .cons (fun s hs => by subst hs; exact exec_feed_absorb hi hc) (ih his (by rw [fedCore_phase, hc]))

/-- FEEDSTR is made of FEED commands. -/
theorem isFeed_of_mem_feedStr {s : List Byte} : ∀ i ∈ feedStr s, IsFeed i := by
  induction s using feedStr.induct with
  | case1 => simp [feedStr]
  | case2 | case3 | case4 => simp [feedStr, IsFeed, fedBytes]
  | case5 b0 b1 b2 b3 s ih => exact List.forall_mem_cons.2 ⟨by simp [IsFeed, fedBytes], ih⟩

/-- FEEDSTR feeds the string. -/
theorem flatMap_fedBytes_feedStr (s : List Byte) : (feedStr s).flatMap fedBytes = s := by
  induction s using feedStr.induct with
  | case1 | case2 | case3 | case4 => rfl
  | case5 b0 b1 b2 b3 s ih => rw [feedStr, List.flatMap_cons, ih]; rfl

theorem length_feedStr (s : List Byte) :
    (feedStr s).length = s.length / 4 + (if s.length % 4 = 0 then 0 else 1) := by
  induction s using feedStr.induct with
  | case1 | case2 | case3 | case4 => simp [feedStr]
  | case5 b0 b1 b2 b3 s ih =>
    have hdiv : (s.length + 4) / 4 = s.length / 4 + 1 := by omega
    simp only [feedStr, List.length_cons, ih, Nat.add_assoc, Nat.reduceAdd, hdiv, Nat.add_mod_right]
    omega

/-- The whole 4-byte slices are FEED4 commands. -/
theorem getElem?_feedStr {s : List Byte} : ∀ {k : Nat}, k < s.length / 4 → (feedStr s)[k]? =
    some (.feed4 (s.getD (4 * k) 0) (s.getD (4 * k + 1) 0) (s.getD (4 * k + 2) 0) (s.getD (4 * k + 3) 0)) := by
  induction s using feedStr.induct with
  | case1 | case2 | case3 | case4 => simp
  | case5 b0 b1 b2 b3 s ih =>
    intro k hk
    cases k with
    | zero => rfl
    | succ k =>
      simp only [List.length_cons] at hk
      exact ih (by omega)

/-- The bytes after the whole slices are one more FEED, the last command. -/
theorem getLast?_feedStr {s : List Byte} (h : s.length % 4 ≠ 0) :
    ∃ i, (feedStr s).getLast? = some i ∧ fedBytes i = s.drop (4 * (s.length / 4)) := by
  induction s using feedStr.induct with
  | case1 => exact absurd rfl h
  | case2 | case3 | case4 => exact ⟨_, rfl, by simp [fedBytes]⟩
  | case5 b0 b1 b2 b3 s ih =>
    have hmod : s.length % 4 ≠ 0 := by simpa [Nat.add_assoc] using h
    obtain ⟨i, hlast, hi⟩ := ih hmod
    refine ⟨i, by rw [feedStr, List.getLast?_cons, hlast]; rfl, ?_⟩
    have hdiv : 4 * ((s.length + 4) / 4) = 4 * (s.length / 4) + 4 := by omega
    simp only [List.length_cons, Nat.add_assoc, Nat.reduceAdd, hdiv, hi]
    rfl

/-- In ABSORB FEEDSTR feeds its string, each command answered OK with 0. -/
theorem Answers.of_feedStr {c : CoreState} (s : List Byte) (hc : c.phase = 1) :
    Answers c (feedStr s) (List.replicate (feedStr s).length 0) (fedCore s c) := by
  have h := Answers.of_feeds (isFeed_of_mem_feedStr (s := s)) hc
  rwa [flatMap_fedBytes_feedStr] at h

/-- Settles O59: each clause by the recursion of FEEDSTR over the 4-byte slices, and the run feeds the string. -/
theorem feedStrFeedsTheString : Obligations.FeedStrFeedsTheString := by
  intro s
  refine ⟨isFeed_of_mem_feedStr, flatMap_fedBytes_feedStr s, length_feedStr s, fun k => getElem?_feedStr,
    fun h => ?_, fun m alg input hm => ?_⟩
  · obtain ⟨i, hlast, hi⟩ := getLast?_feedStr h
    exact ⟨i, hlast, hi, by rw [hi, List.length_drop]; omega⟩
  · obtain ⟨t, hrun, ht⟩ := (Answers.of_feedStr s hm.absorbing).execAll rfl
    exact ⟨t, hrun, ht ▸ hm.of_fedCore s⟩

end Sys2Proof.Machine
end

section
/-! DIGEST (spec/30_encoding.md R120): issued at the port its commands are all answered OK, and the characters its
RDHEX commands read are the hex digest of the string. -/

namespace Sys2Proof.Machine

/-- A run of k + 1 steps takes one step and goes on with k. -/
theorem run_succ_of_step {M : Host.Core} {s t : M.State} (h : M.step s = .next t) (k : Nat) :
    M.run (k + 1) s = M.run k t := by
  rw [Host.Core.run, h]

/-- The word of a well-formed command runs it (R117). -/
theorem step_of_encode {s : State} {i : Instr} {rest : List HostAction} (hi : i.wf = true)
    (hp : s.pending = .command (encode i) :: rest) : step s = exec i { s with pending := rest } := by
  rw [step_of_pending hp, act_command_of_decode (decode_encode hi)]

/-- Commands that are all answered OK are answered so when they are issued at the port. -/
theorem Answers.run {c d : CoreState} {is : List Instr} {xs : List Word} (h : Answers c is xs d) :
    ∀ {s : State} {rest : List HostAction}, (∀ i ∈ is, i.wf = true) → s.core = c → s.pending = issue is ++ rest →
    Host.Core.run core is.length s = .next
      { core := d, pending := rest, responses := (xs.map (Response.mk 0x00)).reverse ++ s.responses,
        faultSeen := s.faultSeen } := by
  induction h with
  | nil c =>
    rintro s rest - rfl hp
    cases s
    cases hp
    rfl
  | cons hexec _ ih =>
    intro s rest hwf hs hp
    obtain ⟨hi, hwf⟩ := List.forall_mem_cons.1 hwf
    have hstep := (step_of_encode hi hp).trans (hexec _ hs)
    refine (run_succ_of_step (M := core) hstep _).trans ((ih hwf rfl rfl).trans ?_)
    simp

theorem IsFeed.wf {i : Instr} (h : IsFeed i) : i.wf = true := by
  cases i with
  | feed1 | feed2 | feed3 | feed4 => rfl
  | _ => exact absurd rfl h

/-- A digest of the algorithm has one group for every four of its characters, and two characters for every byte. -/
theorem hexLength_groups (alg : BitVec 1) : (hexLength alg).toNat / 4 = hexGroups alg ∧
    2 * ((hexLength alg).toNat / 2) = 4 * hexGroups alg := by
  revert alg
  decide

theorem hexGroups_le (alg : BitVec 1) : hexGroups alg ≤ 10 := by
  unfold hexGroups
  split <;> omega

/-- The commands of DIGEST, read by read. -/
theorem digestCommands_eq (alg : BitVec 1) (s : List Byte) : digestCommands alg s =
    ([startOf alg] ++ feedStr s ++ [.finish]) ++ (List.range (hexGroups alg)).map .rdhex ++ [.wipe] := by
  simp [digestCommands]

theorem wf_of_mem_digestCommands {alg : BitVec 1} {s : List Byte} : ∀ i ∈ digestCommands alg s, i.wf = true := by
  intro i hi
  rw [digestCommands_eq] at hi
  simp only [List.mem_append, List.mem_singleton, List.mem_map, List.mem_range] at hi
  obtain (((rfl | hi) | rfl) | ⟨j, hj, rfl⟩) | rfl := hi
  · unfold startOf
    split <;> rfl
  · exact (isFeed_of_mem_feedStr i hi).wf
  · rfl
  · have := hexGroups_le alg
    exact decide_eq_true (by omega)
  · rfl

/-- START of either algorithm opens its session (R351, R352). -/
theorem exec_startOf {s : State} (h3 : s.core.phase ≠ 3) (alg : BitVec 1) :
    exec (startOf alg) s = .next (answered s (startSession alg s.core) 0) := by
  obtain rfl | rfl : alg = 0 ∨ alg = 1 := by
    revert alg
    decide
  · exact inAnyPhase_ok h3 _
  · exact inAnyPhase_ok h3 _

/-- FINISH latches the digest of the whole input (R305, R316): the blocks of the padded input are those already
compressed, then those of the valid bytes and the padding. -/
theorem Absorbed.finishedCore_dg {alg : BitVec 1} {input : List Byte} {c : CoreState} (h : Absorbed alg input c) :
    (finishedCore c).dg = referenceDigest alg input := by
  rw [finishedCore_of_wf h.bufWf, latchDigest_dg, h.tag, h.words, h.valid, fill_of_total h.counted, h.counted,
    referenceDigest, referenceWords, referenceWords, paddedMessage, completeBlocks_append input,
    compressBlocks_append]

/-- RDHEX in DONE and in range answers the four characters of its group (R313). -/
theorem exec_rdhex_done {s : State} {alg : BitVec 1} {j : Nat} (hp : s.core.phase = 2)
    (hlen : s.core.dlen = hexLength alg) (hj : j < hexGroups alg) : exec (.rdhex j) s =
      .next (answered s s.core (le32 (hexOf (s.core.dg.toList.take ((hexLength alg).toNat / 2))) (4 * j))) := by
  obtain ⟨hgroups, -⟩ := hexLength_groups alg
  rw [← hlen] at hgroups ⊢
  exact readGroup_ok hp (hgroups.symm ▸ hj) (hexDigest_ok (hlen ▸ hexLength_bytes_le alg))

/-- The reads of a latched digest, each answered with its four characters, leave the core. -/
theorem Answers.of_rdhex {c : CoreState} {alg : BitVec 1} (hp : c.phase = 2) (hlen : c.dlen = hexLength alg)
    {js : List Nat} (hjs : ∀ j ∈ js, j < hexGroups alg) : Answers c (js.map .rdhex)
      (js.map fun j => le32 (hexOf (c.dg.toList.take ((hexLength alg).toNat / 2))) (4 * j)) c := by
  induction js with
  | nil => exact .nil c
  | cons j js ih =>
    obtain ⟨hj, hjs⟩ := List.forall_mem_cons.1 hjs
    exact .cons (fun s hs => by subst hs; exact exec_rdhex_done hp hlen hj) (ih hjs)

/-- DIGEST in any phase: every command is answered OK, the reads with the characters of the hex digest of the
string, and the core is left as after reset. -/
theorem Answers.of_digest {c : CoreState} (h3 : c.phase ≠ 3) (alg : BitVec 1) (bytes : List Byte) :
    Answers c (digestCommands alg bytes)
      (([0] ++ List.replicate (feedStr bytes).length 0 ++ [(hexLength alg).setWidth 32]) ++
        (List.range (hexGroups alg)).map (fun j => le32 (referenceHex alg bytes) (4 * j)) ++ [0])
      CoreState.reset := by
  have habs : Absorbed alg bytes (fedCore bytes (startSession alg c)) := (Absorbed.of_startSession alg c).of_fedCore bytes
  have hstart : Answers c [startOf alg] [0] (startSession alg c) :=
    .one fun s hs => by subst hs; exact exec_startOf h3 alg
  have hfinish : Answers (fedCore bytes (startSession alg c)) [.finish] [(hexLength alg).setWidth 32]
      (finishedCore (fedCore bytes (startSession alg c))) :=
    .one fun s hs => by rw [exec_finish_absorb (hs ▸ habs.absorbing), hs, habs.tag]
  have hreads := Answers.of_rdhex (c := finishedCore (fedCore bytes (startSession alg c))) (alg := alg)
    (finishedCore_phase _) (by rw [finishedCore_dlen, habs.tag]) (js := List.range (hexGroups alg))
    fun _ => List.mem_range.1
  have hwipe : Answers (finishedCore (fedCore bytes (startSession alg c))) [.wipe] [0] CoreState.reset :=
    .one fun s hs => inAnyPhase_ok (by rw [hs, finishedCore_phase]; decide) _
  rw [habs.finishedCore_dg] at hreads
  rw [digestCommands_eq]
  exact (((hstart.append (.of_feedStr bytes rfl)).append hfinish).append hreads).append hwipe

/-- The four characters of a read are the bytes of its group, low byte first (R313). -/
theorem le32bytes_le32 {s : List Byte} {k : Nat} (h : k + 4 ≤ s.length) : le32bytes (le32 s k) = (s.drop k).take 4 := by
  refine List.ext_getElem (by simp [le32bytes]; omega) fun j hj _ => ?_
  have hj : j < 4 := by simpa [le32bytes] using hj
  simp only [le32bytes, List.getElem_map, List.getElem_range, List.getElem_take, List.getElem_drop, byteLE]
  rw [le32_byte s k j hj, byteAt, List.getD_eq_getElem _ _ (by omega)]

/-- The 4-byte groups of a string, one after another, are the string. -/
theorem flatMap_groups (s : List Byte) (n : Nat) :
    (List.range n).flatMap (fun j => (s.drop (4 * j)).take 4) = s.take (4 * n) := by
  induction n with
  | zero => rfl
  | succ n ih => rw [List.range_succ, List.flatMap_append, ih, List.flatMap_singleton, Nat.mul_succ, List.take_add]

/-- The characters of the reads of every group of a string are the string (R120). -/
theorem hexText_groups {s : List Byte} {n : Nat} (h : s.length = 4 * n) :
    hexText (((List.range n).map fun j => le32 s (4 * j)).map (Response.mk 0x00)) = s := by
  calc hexText (((List.range n).map fun j => le32 s (4 * j)).map (Response.mk 0x00))
      = (List.range n).flatMap fun j => (s.drop (4 * j)).take 4 := by
        rw [hexText, List.flatMap_map, List.flatMap_map]
        refine List.flatMap_congr fun j hj => le32bytes_le32 ?_
        have := List.mem_range.1 hj
        omega
    _ = s := by rw [flatMap_groups, List.take_of_length_le (by omega)]

theorem length_hexOf (bytes : List Byte) : (hexOf bytes).length = 2 * bytes.length := by
  induction bytes with
  | nil => rfl
  | cons b bytes ih =>
    rw [hexOf, List.flatMap_cons, List.length_append, ← hexOf, ih, List.length_cons]
    simp only [List.length_cons, List.length_nil]
    omega

/-- The hex digest fills its groups: 32 characters for A and 40 for B (R306). -/
theorem length_referenceHex (alg : BitVec 1) (m : List Byte) : (referenceHex alg m).length = 4 * hexGroups alg := by
  obtain ⟨-, hgroups⟩ := hexLength_groups alg
  rw [referenceHex, length_hexOf, List.length_take_of_le (by simpa using hexLength_bytes_le alg), hgroups]

/-- Settles O60: issued at the port DIGEST is answered as its commands are, and the words its reads answer spell the
hex digest group by group. -/
theorem digestPseudoInstructionReturnsTheHexDigest : Obligations.DigestPseudoInstructionReturnsTheHexDigest := by
  intro alg bytes m rest h3 hp
  have hrun := (Answers.of_digest h3 alg bytes).run wf_of_mem_digestCommands rfl hp
  rw [List.map_append, List.map_append] at hrun
  have hok (xs : List Word) : ∀ r ∈ xs.map (Response.mk 0x00), r.status = 0x00 := List.forall_mem_map.2 fun _ _ => rfl
  refine ⟨_, ([0] ++ List.replicate (feedStr bytes).length 0 ++ [(hexLength alg).setWidth 32]).map (Response.mk 0x00),
    _, ⟨0x00, 0⟩, hrun, ?_, ?_, ?_, ?_, hexText_groups (length_referenceHex alg bytes), rfl, rfl⟩
  · simp
  · simp
  · simp [hexGroups]
  · exact List.forall_mem_append.2 ⟨List.forall_mem_append.2 ⟨hok _, hok _⟩, hok [0]⟩

end Sys2Proof.Machine
end

section
/-! The assembler line (spec/30_encoding.md R118): its parts hold no separator, so the reader finds them again. -/

namespace Sys2Proof.Machine

/-- A text without the characters that separate the parts of a line. -/
def Plain (t : List Char) : Prop := ∀ c ∈ t, c ≠ ' ' ∧ c ≠ ',' ∧ c ≠ ';'

/-- A mnemonic or an operand: a plain text with at least one character. -/
def IsPart (t : List Char) : Prop := Plain t ∧ t ≠ []

theorem IsPart.no_space {t : List Char} (h : IsPart t) : ∀ c ∈ t, (c != ' ') = true := fun c hc =>
  bne_iff_ne.2 (h.1 c hc).1

theorem isPart_mnemonicText (m : Mnemonic) : IsPart (mnemonicText m) := by
  cases m <;> simp [IsPart, Plain, mnemonicText]

/-- A digit looked up is a digit. -/
theorem getD_digitChars_mem (n : Nat) : digitChars.getD n '0' ∈ digitChars := by
  rw [List.getD_eq_getElem?_getD]
  cases h : digitChars[n]? with
  | none => decide
  | some c => exact List.mem_of_getElem? h

theorem plain_digitChars : Plain digitChars := by
  simp [Plain, digitChars]

theorem isPart_byteText (b : Byte) : IsPart (byteText b) := by
  refine ⟨?_, by simp [byteText]⟩
  simp only [byteText, Plain, List.forall_mem_cons]
  exact ⟨by decide, by decide, plain_digitChars _ (getD_digitChars_mem _), plain_digitChars _ (getD_digitChars_mem _),
    List.forall_mem_nil _⟩

theorem isPart_indexText (n : Nat) : IsPart (indexText n) := by
  unfold indexText
  split
  · refine ⟨?_, by simp⟩
    exact List.forall_mem_singleton.2 (plain_digitChars _ (getD_digitChars_mem _))
  · refine ⟨?_, by simp⟩
    exact List.forall_mem_cons.2 ⟨by decide, List.forall_mem_singleton.2 (plain_digitChars _ (getD_digitChars_mem _))⟩

theorem isPart_of_mem_operandTexts {i : Instr} : ∀ t ∈ operandTexts i, IsPart t := by
  cases i <;> simp [operandTexts, isPart_byteText, isPart_indexText]

theorem digitValue_getD {n : Nat} (h : n < 16) : digitValue (digitChars.getD n '0') = some n := by
  have : ∀ n < 16, digitValue (digitChars.getD n '0') = some n := by decide
  exact this n h

theorem readByte_byteText (b : Byte) : readByte (byteText b) = some b := by
  have hb := b.isLt
  have hvalue : 16 * (b.toNat / 16) + b.toNat % 16 = b.toNat := Nat.div_add_mod _ _
  simp only [byteText, readByte, digitValue_getD (show b.toNat / 16 < 16 by omega),
    digitValue_getD (show b.toNat % 16 < 16 by omega)]
  simp [hvalue]

theorem readIndex_indexText {n : Nat} (h : n < 16) : readIndex (indexText n) = some n := by
  have : ∀ n < 16, readIndex (indexText n) = some n := by decide
  exact this n h

theorem readMnemonic_mnemonicText (m : Mnemonic) : readMnemonic (mnemonicText m) = some m := by
  cases m <;> rfl

/-- The operands of a well-formed command read back. -/
theorem readCommand_operandTexts {i : Instr} (hi : i.wf = true) :
    readCommand i.mnemonic (operandTexts i) = some i := by
  cases i with
  | nop | startA | startB | wipe | rdstat | rdcntl | rdcnth | finish => rfl
  | feed1 | feed2 | feed3 | feed4 => simp [Instr.mnemonic, operandTexts, readCommand, readByte_byteText]
  | rdhex idx | rdraw idx =>
    have hidx : idx < 16 := by simpa [Instr.wf] using hi
    simp [Instr.mnemonic, operandTexts, readCommand, readIndex_indexText hidx]

/-- Trimming drops a leading space. -/
theorem trim_cons_space (t : List Char) : trim (' ' :: t) = trim t := by
  simp [trim]

/-- What a line and its parts are: a text without a comment that neither begins nor ends with a space. -/
structure Trimmed (t : List Char) : Prop where
  ne_nil : t ≠ []
  head : t.head? ≠ some ' '
  last : t.getLast? ≠ some ' '
  noComment : ∀ c ∈ t, c ≠ ';'

theorem IsPart.trimmed {t : List Char} (h : IsPart t) : Trimmed t where
  ne_nil := h.2
  head := fun he => (h.1 _ (List.mem_of_head? he)).1 rfl
  last := fun he => (h.1 _ (List.mem_of_getLast? he)).1 rfl
  noComment := fun c hc => (h.1 c hc).2.2

/-- The line up to a comment is the whole line. -/
theorem Trimmed.takeWhile_eq {t : List Char} (h : Trimmed t) : t.takeWhile (fun c => c != ';') = t :=
  List.takeWhile_eq_self_iff.2 fun c hc => bne_iff_ne.2 (h.noComment c hc)

/-- Trimmed texts may be joined by any separator but a comment's. -/
theorem Trimmed.join {t u sep : List Char} (ht : Trimmed t) (hu : Trimmed u) (hsep : ∀ c ∈ sep, c ≠ ';') :
    Trimmed (t ++ (sep ++ u)) where
  ne_nil := by simp [ht.ne_nil]
  head := by
    rw [List.head?_append_of_ne_nil _ ht.ne_nil]
    exact ht.head
  last := by
    rw [List.getLast?_append_of_ne_nil _ (by simp [hu.ne_nil]), List.getLast?_append_of_ne_nil _ hu.ne_nil]
    exact hu.last
  noComment := List.forall_mem_append.2 ⟨ht.noComment, List.forall_mem_append.2 ⟨hsep, hu.noComment⟩⟩

theorem Trimmed.trim_eq {t : List Char} (h : Trimmed t) : trim t = t := by
  have hdrop : ∀ {u : List Char}, u.head? ≠ some ' ' → u.dropWhile (fun c => c == ' ') = u := by
    intro u hu
    cases u with
    | nil => rfl
    | cons c u => exact List.dropWhile_cons_of_neg (by simpa using hu)
  rw [trim, hdrop h.head, hdrop (by rw [List.head?_reverse]; exact h.last), List.reverse_reverse]

/-- Up to the first comma a text is one part. -/
theorem splitCommas_append_comma {t : List Char} (ht : ∀ c ∈ t, c ≠ ',') (r : List Char) :
    splitCommas (t ++ ',' :: r) = t :: splitCommas r := by
  induction t with
  | nil => rfl
  | cons c t ih =>
    obtain ⟨hc, ht⟩ := List.forall_mem_cons.1 ht
    rw [List.cons_append, splitCommas, if_neg hc, ih ht]

theorem splitCommas_of_no_comma {t : List Char} (ht : ∀ c ∈ t, c ≠ ',') : splitCommas t = [t] := by
  induction t with
  | nil => rfl
  | cons c t ih =>
    obtain ⟨hc, ht⟩ := List.forall_mem_cons.1 ht
    rw [splitCommas, if_neg hc, ih ht]

theorem splitCommas_ne_nil (t : List Char) : splitCommas t ≠ [] := by
  cases t with
  | nil => simp [splitCommas]
  | cons c t =>
    rw [splitCommas]
    split
    · simp
    · split <;> simp

/-- A leading space does not change the trimmed parts. -/
theorem map_trim_splitCommas_space (t : List Char) :
    (splitCommas (' ' :: t)).map trim = (splitCommas t).map trim := by
  rw [splitCommas, if_neg (by decide)]
  obtain ⟨u, us, h⟩ := List.exists_cons_of_ne_nil (splitCommas_ne_nil t)
  rw [h, List.map_cons, List.map_cons, trim_cons_space]

/-- The operands are the trimmed parts between the commas. -/
theorem map_trim_splitCommas_operandsText {ts : List (List Char)} (hne : ts ≠ []) (hts : ∀ t ∈ ts, IsPart t) :
    (splitCommas (operandsText ts)).map trim = ts := by
  have hcomma : ∀ {t : List Char}, IsPart t → ∀ c ∈ t, c ≠ ',' := fun ht c hc => (ht.1 c hc).2.1
  induction ts using operandsText.induct with
  | case1 => exact absurd rfl hne
  | case2 t =>
    have ht : IsPart t := hts t (by simp)
    rw [operandsText, splitCommas_of_no_comma (hcomma ht)]
    rw [List.map_singleton, ht.trimmed.trim_eq]
  | case3 t ts hnil ih =>
    obtain ⟨ht, hts⟩ := List.forall_mem_cons.1 hts
    have hne : ts ≠ [] := by simpa using hnil
    rw [operandsText, List.append_assoc, List.cons_append, List.cons_append, List.nil_append,
      splitCommas_append_comma (hcomma ht), List.map_cons, map_trim_splitCommas_space, ih hne hts,
      ht.trimmed.trim_eq]
    exact hnil

theorem trimmed_operandsText {ts : List (List Char)} (hne : ts ≠ []) (hts : ∀ t ∈ ts, IsPart t) :
    Trimmed (operandsText ts) := by
  induction ts using operandsText.induct with
  | case1 => exact absurd rfl hne
  | case2 t => exact (hts t (List.mem_singleton_self t)).trimmed
  | case3 t ts hnil ih =>
    obtain ⟨ht, hts⟩ := List.forall_mem_cons.1 hts
    rw [operandsText, List.append_assoc]
    · exact ht.trimmed.join (ih hnil hts) (by simp)
    · exact hnil

/-- A line of one plain text is a mnemonic without operands. -/
theorem assembleLine_mnemonic {m : List Char} (hm : IsPart m) :
    assembleLine m = (readMnemonic m).bind fun n => readCommand n [] := by
  have hspace := hm.no_space
  simp only [assembleLine, hm.trimmed.takeWhile_eq, hm.trimmed.trim_eq, List.takeWhile_eq_self_iff.2 hspace,
    List.dropWhile_eq_nil_iff.2 hspace]
  rfl

/-- After the first space of a line stand its operands, between commas. -/
theorem assembleLine_operands {m : List Char} (hm : IsPart m) {ts : List (List Char)} (hne : ts ≠ [])
    (hts : ∀ t ∈ ts, IsPart t) :
    assembleLine (m ++ ' ' :: operandsText ts) = (readMnemonic m).bind fun n => readCommand n ts := by
  have hops := trimmed_operandsText hne hts
  have hline : Trimmed (m ++ ' ' :: operandsText ts) := hm.trimmed.join (sep := [' ']) hops (by simp)
  have hspace := hm.no_space
  have hfirst : (m ++ ' ' :: operandsText ts).takeWhile (fun c => c != ' ') = m := by
    simp [List.takeWhile_append_of_pos hspace]
  have hrest : (m ++ ' ' :: operandsText ts).dropWhile (fun c => c != ' ') = ' ' :: operandsText ts := by
    simp [List.dropWhile_append_of_pos hspace]
  simp only [assembleLine, hline.takeWhile_eq, hline.trim_eq, hfirst, hrest, trim_cons_space, hops.trim_eq,
    if_neg hops.ne_nil, map_trim_splitCommas_operandsText hne hts]
  rfl

/-- Settles O6: the reader finds the mnemonic and the operands again, and each reads back. -/
theorem assembledLineIsTheCommand : Obligations.AssembledLineIsTheCommand := by
  intro i hi
  have hread : (readMnemonic (mnemonicText i.mnemonic)).bind (fun n => readCommand n (operandTexts i)) = some i := by
    rw [readMnemonic_mnemonicText]
    exact readCommand_operandTexts hi
  have hparts := isPart_of_mem_operandTexts (i := i)
  rw [assemblyLine]
  split
  case h_1 hnil => rw [assembleLine_mnemonic (isPart_mnemonicText _), ← hnil, hread]
  case h_2 hne => rw [assembleLine_operands (isPart_mnemonicText _) hne hparts, hread]

end Sys2Proof.Machine
end

section
/-! A byte string that completes a block (spec/41_accumulator.md R150): its first block and what follows it. -/

namespace Sys2Proof.Machine

section
variable {v s : List Byte}

/-- Bytes that reach the end of a block after v split into those that top v up to a block and the rest. -/
theorem append_eq_block_append (hv : v.length ≤ 64) (h : 64 ≤ v.length + s.length) :
    (v ++ s.take (64 - v.length)).length = 64 ∧
      v ++ s = (v ++ s.take (64 - v.length)) ++ s.drop (64 - v.length) := by
  rw [List.append_assoc, List.take_append_drop, List.length_append, List.length_take]
  exact ⟨by omega, rfl⟩

theorem completeBlocks_append_of_full (hv : v.length ≤ 64) (h : 64 ≤ v.length + s.length) :
    completeBlocks (v ++ s) = (v ++ s.take (64 - v.length)) :: completeBlocks (s.drop (64 - v.length)) := by
  obtain ⟨hblock, hsplit⟩ := append_eq_block_append hv h
  rw [hsplit, completeBlocks_cons_block hblock]

theorem tailBytes_append_of_full (hv : v.length ≤ 64) (h : 64 ≤ v.length + s.length) :
    tailBytes (v ++ s) = tailBytes (s.drop (64 - v.length)) := by
  obtain ⟨hblock, hsplit⟩ := append_eq_block_append hv h
  rw [hsplit, tailBytes_cons_block hblock]

end

/-- A tail fits at the start of the buffer. -/
theorem zero_add_length_tailBytes_le (s : List Byte) : 0 + (tailBytes s).length ≤ 64 := by
  rw [tailBytes_length]
  omega

end Sys2Proof.Machine
end

section
/-! FEED (spec/41_accumulator.md R150 to R159): the words of FEED1, what a FEED changes and leaves, and that how a
byte string is cut into FEED commands does not matter. -/

namespace Sys2Proof

theorem mnemonic_readOperands (w : Word64) (m : Mnemonic) : (readOperands w m).mnemonic = m := by
  cases m <;> rfl

/-- A word decodes to a command exactly when the row of the command's mnemonic spells it and reads its operands. -/
theorem decode_eq_some_iff_mnemonic {w : Word64} {i : Instr} :
    decode w = some i ↔ (rowOf i.mnemonic).spells w = true ∧ readOperands w i.mnemonic = i := by
  rw [decode_eq_some_iff_row]
  constructor
  · rintro ⟨m, hm, rfl⟩
    rw [mnemonic_readOperands]
    exact ⟨hm, rfl⟩
  · exact fun h => ⟨_, h⟩

theorem decode_eq_feed1_iff {w : Word64} {b : Byte} :
    decode w = some (.feed1 b) ↔ (rowOf .feed1).spells w = true ∧ operandByte w 0 = b := by
  rw [decode_eq_some_iff_mnemonic, Instr.mnemonic, readOperands, Instr.feed1.injEq]

/-- The test by which the row of FEED1 spells a word (R115). -/
theorem rowOf_feed1_spells_iff {w : Word64} :
    (rowOf .feed1).spells w = true ↔ w &&& 0xFFFFFFFFFFFFFF00 = 0x1000000000000000 :=
  beq_iff_eq

end Sys2Proof

namespace Sys2Proof.Machine

/-- Feeding one byte is absorbing it at the fill and counting it (R150, R151). -/
theorem fedCore_singleton (b : Byte) (c : CoreState) : fedCore [b] c = { c with
    buf := c.buf.set c.fill b
    total := c.total + 1
    h := if c.fill = 63 then compress c.alg c.h ((List.range 64).map (c.buf.set c.fill b).get) else c.h } := rfl

theorem exec_feed1_absorb (b : Byte) {s : State} (hp : s.core.phase = 1) :
    exec (.feed1 b) s = .next (answered s (fedCore [b] s.core) 0) :=
  exec_feed_absorb (i := .feed1 b) (List.cons_ne_nil _ _) hp

/-- Settles O24: the words are those the row of FEED1 spells, and FEED1 absorbs its byte, whatever the buffer holds. -/
theorem feed1AbsorbsOneByte : Obligations.Feed1AbsorbsOneByte := by
  refine ⟨fun w => ?_, fun w b h => (decode_eq_feed1_iff.1 h).2.symm, fun s b0 hp => ?_⟩
  · simp only [decode_eq_feed1_iff, exists_and_left, exists_eq', and_true, rowOf_feed1_spells_iff]
  · rw [exec_feed1_absorb b0 hp, fedCore_singleton]

/-- A FEED1 in ABSORB, said of the core it leaves. -/
theorem exists_exec_feed1 (b : Byte) {s : State} (hp : s.core.phase = 1) :
    ∃ t, exec (.feed1 b) s = .next t ∧ t.core = fedCore [b] s.core ∧ t.core.phase = 1 :=
  ⟨_, exec_feed1_absorb b hp, rfl, (fedCore_phase _ _).trans hp⟩

/-- Settles O25: every FEED leaves the core fed with its bytes, and feeding them one by one is feeding them all. -/
theorem longerFeedsAreFeed1Repeated : Obligations.LongerFeedsAreFeed1Repeated := by
  intro s b0 b1 b2 b3 hp
  obtain ⟨t1, h1, hc1, hp1⟩ := exists_exec_feed1 b0 hp
  obtain ⟨t2, h2, hc2, hp2⟩ := exists_exec_feed1 b1 hp1
  obtain ⟨t3, h3, hc3, hp3⟩ := exists_exec_feed1 b2 hp2
  obtain ⟨t4, h4, hc4, -⟩ := exists_exec_feed1 b3 hp3
  rw [hc1, fedCore_append] at hc2
  rw [hc2, fedCore_append] at hc3
  rw [hc3, fedCore_append] at hc4
  refine ⟨t1, t2, t3, t4, h1, h2, h3, h4, ?_, ?_, ?_⟩
  · rw [hc2]
    exact exec_feed_absorb (i := .feed2 b0 b1) (List.cons_ne_nil _ _) hp
  · rw [hc3]
    exact exec_feed_absorb (i := .feed3 b0 b1 b2) (List.cons_ne_nil _ _) hp
  · rw [hc4]
    exact exec_feed_absorb (i := .feed4 b0 b1 b2 b3) (List.cons_ne_nil _ _) hp

theorem length_fedBytes_le (i : Instr) : (fedBytes i).length ≤ 4 := by
  cases i <;> simp [fedBytes]

/-- Settles O27: where the bytes land is where absorbing writes them, and H is compressed with the blocks they complete. -/
theorem feedFrame : Obligations.FeedFrame := by
  intro i s hi hp hm
  have hlen := length_fedBytes_le i
  obtain ⟨hland, hkeep⟩ := absorbedAll_get (s := fedBytes i) (fill_lt s.core) (by omega) hm
  obtain ⟨-, hh, -⟩ := fedCore_stream (bytes := fedBytes i) hm
  have hv := validBytes_length s.core
  have hf := fill_lt s.core
  refine ⟨_, exec_feed_absorb hi hp, by simp, rfl, hland, hkeep, fun hlt => ?_, fun hge => ?_, fedCore_h4 _⟩
  · rw [answered_core, hh, completeBlocks_short (by rw [List.length_append]; omega), compressBlocks_nil]
  · rw [answered_core, hh, completeBlocks_append_of_full (by omega) (by omega),
      completeBlocks_short (by rw [List.length_drop]; omega), hv]
    rfl

/-- In ABSORB a list of FEED commands completes and feeds the bytes of all of them. -/
theorem execAll_feeds {is : List Instr} {s : State} (his : ∀ i ∈ is, IsFeed i) (hp : s.core.phase = 1) :
    ∃ t, execAll is s = .next t ∧ t.core = fedCore (is.flatMap fedBytes) s.core :=
  (Answers.of_feeds his hp).execAll rfl

/-- Settles O28: either run feeds the whole string, and what FINISH latches is read off the core. -/
theorem streamingEquivalence : Obligations.StreamingEquivalence := by
  intro is js s hp his hjs hbytes
  obtain ⟨t, ht, htc⟩ := execAll_feeds his hp
  obtain ⟨u, hu, huc⟩ := execAll_feeds hjs hp
  have hcore : t.core = u.core := by rw [htc, huc, hbytes]
  have htp : t.core.phase = 1 := by rw [htc, fedCore_phase, hp]
  refine ⟨t, u, _, _, ht, hu, hcore, exec_finish_absorb htp, exec_finish_absorb (hcore ▸ htp), ?_⟩
  rw [answered_core, answered_core, hcore]

end Sys2Proof.Machine
end

section
/-! The source's stride algorithm (spec/41_accumulator.md R152): what it leaves, said through the blocks and the tail of
the valid bytes followed by the input, as for the byte-serial Feed. -/

namespace Sys2Proof.Machine

/-- A write that is left out for no bytes is the write of all of them. -/
theorem write_unless_nil {α : Type} {k : Nat} {s : List Byte} (hk : k + s.length ≤ 64) (m : Memory)
    (f : Memory → Except Fault α) :
    (if s = [] then f m else memWrite k s m >>= f) = f (m.setAll k s) := by
  by_cases hs : s = []
  · rw [if_pos hs, hs]
    rfl
  · rw [if_neg hs, memWrite_ok m (List.length_pos_iff.2 hs) hk]
    rfl

section
variable {c : CoreState} {s : List Byte}

/-- Short of a block the stride algorithm writes the input at the fill. -/
theorem sourceFeed_short (h : c.fill + s.length < 64) : sourceFeed s c =
    .ok { c with buf := c.buf.setAll c.fill s, total := c.total + BitVec.ofNat 64 s.length } := by
  unfold sourceFeed
  rw [if_pos h]
  exact write_unless_nil h.le c.buf fun m =>
    .ok { c with buf := m, total := c.total + BitVec.ofNat 64 s.length }

/-- The buffer topped up to a block with the first bytes of the input. -/
def toppedUp (s : List Byte) (c : CoreState) : Memory := c.buf.setAll c.fill (s.take (64 - c.fill))

/-- The bytes of the input after those that top the buffer up. -/
def afterTopUp (s : List Byte) (c : CoreState) : List Byte := s.drop (64 - c.fill)

theorem fill_add_length_take (h : 64 ≤ c.fill + s.length) : c.fill + (s.take (64 - c.fill)).length = 64 := by
  have hf := fill_lt c
  rw [List.length_take]
  omega

theorem toppedUp_wf (hm : c.buf.wf = true) (h : 64 ≤ c.fill + s.length) : (toppedUp s c).wf = true :=
  Memory.setAll_wf hm (fill_add_length_take h).le

/-- The topped-up buffer holds the valid bytes, then the input up to the end of the block. -/
theorem range_get_toppedUp (hm : c.buf.wf = true) (h : 64 ≤ c.fill + s.length) :
    (List.range 64).map (toppedUp s c).get = c.validBytes ++ s.take (64 - c.fill) := by
  have hlen := fill_add_length_take h
  have hget := range_get_setAll hm c.fill (s.take (64 - c.fill)) hlen.le
  rwa [hlen] at hget

/-- Once a block is complete the stride algorithm compresses it and the blocks after it, and keeps their tail. -/
theorem sourceFeed_long (hm : c.buf.wf = true) (h : 64 ≤ c.fill + s.length) : sourceFeed s c = .ok { c with
    buf := (toppedUp s c).setAll 0 (tailBytes (afterTopUp s c))
    h := compressBlocks c.alg c.h (completeBlocks (c.validBytes ++ s))
    total := c.total + BitVec.ofNat 64 s.length } := by
  have hf := fill_lt c
  have hv := validBytes_length c
  have htop := fill_add_length_take h
  have hwrite : memWrite c.fill (s.take (64 - c.fill)) c.buf = pure (toppedUp s c) :=
    memWrite_ok c.buf (by omega) htop.le
  have hread : memRead 0 Config.blockBytes (toppedUp s c) = pure (c.validBytes ++ s.take (64 - c.fill)) := by
    rw [memRead_block, range_get_toppedUp hm h]
    rfl
  rw [completeBlocks_append_of_full (by omega) (by omega), hv, compressBlocks_cons]
  unfold sourceFeed
  rw [if_neg h.not_gt, hwrite, pure_bind, hread, pure_bind]
  exact write_unless_nil (zero_add_length_tailBytes_le _) (toppedUp s c) fun m => .ok { c with
    buf := m
    h := compressBlocks c.alg (compress c.alg c.h (c.validBytes ++ s.take (64 - c.fill)))
      (completeBlocks (afterTopUp s c))
    total := c.total + BitVec.ofNat 64 s.length }

/-- What agrees with the byte-serial Feed: H compressed with the complete blocks of the valid bytes and the input, and
their tail at the start of the buffer, with whatever bytes after it. -/
theorem sameButStale_fedCore {m : Memory} (hc : c.buf.wf = true) (hm : m.wf = true)
    (htail : (List.range ((c.fill + s.length) % 64)).map m.get = tailBytes (c.validBytes ++ s)) :
    SameButStale (fedCore s c) { c with
      buf := m
      h := compressBlocks c.alg c.h (completeBlocks (c.validBytes ++ s))
      total := c.total + BitVec.ofNat 64 s.length } := by
  obtain ⟨hw, hh, hv⟩ := fedCore_stream (bytes := s) hc
  rw [← htail, ← fedCore_fill, CoreState.validBytes] at hv
  refine ⟨hw, hm, ?_, fun k hk => List.map_inj_left.1 hv k (List.mem_range.2 hk)⟩
  rw [fedCore_rest, hh]

theorem sourceFeed_short_agrees (hc : c.buf.wf = true) (h : c.fill + s.length < 64) :
    ∃ e, sourceFeed s c = .ok e ∧ SameButStale (fedCore s c) e := by
  have hlen : (c.validBytes ++ s).length < 64 := by rwa [List.length_append, validBytes_length]
  have hget : (List.range ((c.fill + s.length) % 64)).map (c.buf.setAll c.fill s).get =
      tailBytes (c.validBytes ++ s) := by
    rw [Nat.mod_eq_of_lt h, range_get_setAll hc _ _ h.le, tailBytes_short hlen, CoreState.validBytes]
  have hsame := sameButStale_fedCore hc (Memory.setAll_wf hc h.le) hget
  rw [completeBlocks_short hlen] at hsame
  exact ⟨_, sourceFeed_short h, hsame⟩

theorem sourceFeed_long_agrees (hc : c.buf.wf = true) (h : 64 ≤ c.fill + s.length) :
    ∃ e, sourceFeed s c = .ok e ∧ SameButStale (fedCore s c) e := by
  have hf := fill_lt c
  have hv := validBytes_length c
  have hm := toppedUp_wf hc h
  have hfits := zero_add_length_tailBytes_le (afterTopUp s c)
  have htail : tailBytes (c.validBytes ++ s) = tailBytes (afterTopUp s c) := by
    rw [tailBytes_append_of_full (by omega) (by omega), hv, afterTopUp]
  have hlen : (c.fill + s.length) % 64 = 0 + (tailBytes (afterTopUp s c)).length := by
    rw [← htail, tailBytes_length, List.length_append, hv, Nat.zero_add]
  have hget : (List.range ((c.fill + s.length) % 64)).map
      ((toppedUp s c).setAll 0 (tailBytes (afterTopUp s c))).get = tailBytes (c.validBytes ++ s) := by
    rw [hlen, range_get_setAll hm _ _ hfits, htail, List.range_zero, List.map_nil, List.nil_append]
  exact ⟨_, sourceFeed_long hc h, sameButStale_fedCore hc (Memory.setAll_wf hm hfits) hget⟩

end

/-- Settles O29: whether or not the input completes a block, the stride algorithm leaves the tail of the valid bytes
and the input at the start of the buffer, and H compressed with their complete blocks. -/
theorem sourceFeedAgreesWithFeed : Obligations.SourceFeedAgreesWithFeed := by
  intro c s hc
  obtain ⟨e, he, hsame⟩ : ∃ e, sourceFeed s c = .ok e ∧ SameButStale (fedCore s c) e := by
    rcases lt_or_ge (c.fill + s.length) 64 with h | h
    · exact sourceFeed_short_agrees hc h
    · exact sourceFeed_long_agrees hc h
  exact ⟨_, e, feed_ok s c, he, hsame⟩

end Sys2Proof.Machine
end

section
/-! The round functions of A and B bit by bit (spec/42_compress_a.md R192 to R195, spec/43_compress_b.md R252 to R254). -/

namespace Sys2Proof.Machine

section
variable (x y z : Word) {k : Nat}

/-- fA0 selects by x (R192). -/
theorem fA0_getLsbD (hk : k < 32) :
    (fA0 x y z).getLsbD k = if x.getLsbD k then y.getLsbD k else z.getLsbD k := by
  rw [fA0, BitVec.getLsbD_or, BitVec.getLsbD_and, BitVec.getLsbD_and, BitVec.getLsbD_not]
  cases x.getLsbD k <;> simp [hk]

/-- fA1 is fA0 with the selector last: it selects by z (R193). -/
theorem fA1_eq_fA0 : fA1 x y z = fA0 z x y := by
  rw [fA1, fA0, BitVec.and_comm x, BitVec.and_comm y]

/-- fA2 is the parity (R194). -/
theorem fA2_getLsbD : (fA2 x y z).getLsbD k = (x.getLsbD k ^^ y.getLsbD k ^^ z.getLsbD k) := by
  rw [fA2, BitVec.getLsbD_xor, BitVec.getLsbD_xor]

/-- fA3 sets y against x or not z (R195). -/
theorem fA3_getLsbD (hk : k < 32) :
    (fA3 x y z).getLsbD k = (y.getLsbD k ^^ (x.getLsbD k || !z.getLsbD k)) := by
  rw [fA3, BitVec.getLsbD_xor, BitVec.getLsbD_or, BitVec.getLsbD_not, decide_eq_true hk, Bool.true_and]

/-- fB0 is A's function of group 0 (R252). -/
theorem fB0_eq_fA0 : fB0 x y z = fA0 x y z := rfl

/-- fB1 is A's function of group 2 (R253). -/
theorem fB1_eq_fA2 : fB1 x y z = fA2 x y z := rfl

/-- fB2 is the majority: where x and y agree it is their bit, and elsewhere z decides (R254). -/
theorem fB2_getLsbD : (fB2 x y z).getLsbD k =
    if x.getLsbD k = y.getLsbD k then x.getLsbD k else z.getLsbD k := by
  simp only [fB2, BitVec.getLsbD_or, BitVec.getLsbD_and]
  cases x.getLsbD k <;> cases y.getLsbD k <;> simp

/-- fB3 is fB1 (R253). -/
theorem fB3_eq_fA2 : fB3 x y z = fA2 x y z := rfl

end

/-- Settles O30: fA1, fB0, fB1 and fB3 are fA0 and fA2, and the others are read bit by bit. -/
theorem roundFunctionsBitByBit : Obligations.RoundFunctionsBitByBit := by
  intro x y z k hk
  rw [fA1_eq_fA0, fB0_eq_fA0, fB1_eq_fA2, fB3_eq_fA2]
  exact ⟨fA0_getLsbD x y z hk, fA0_getLsbD z x y hk, fA2_getLsbD x y z, fA3_getLsbD x y z hk,
    fA0_getLsbD x y z hk, fA2_getLsbD x y z, fB2_getLsbD x y z, fA2_getLsbD x y z⟩

end Sys2Proof.Machine
end

section
/-! The tables of A (spec/42_compress_a.md R196 to R198): message indices, rotation amounts and round constants. -/

namespace Sys2Proof.Machine

/-- An affine map modulo n whose factor is coprime to n permutes 0..n-1. -/
theorem affine_mod_perm {n a : Nat} (b : Nat) (ha : Nat.Coprime n a) (hn : 0 < n) :
    ((List.range n).map fun j => (a * j + b) % n).Perm (List.range n) := by
  have hinj : ((List.range n).map fun j => (a * j + b) % n).Nodup := by
    refine List.nodup_range.map_on fun i hi j hj hij => ?_
    have hmod : i ≡ j [MOD n] := (Nat.ModEq.add_right_cancel' b hij).cancel_left_of_coprime ha
    exact hmod.eq_of_lt_of_lt (List.mem_range.1 hi) (List.mem_range.1 hj)
  have hsub : ((List.range n).map fun j => (a * j + b) % n) ⊆ List.range n := by
    intro v hv
    obtain ⟨j, -, rfl⟩ := List.mem_map.1 hv
    exact List.mem_range.2 (Nat.mod_lt _ hn)
  exact (List.subperm_of_subset hinj hsub).perm_of_length_le (by simp)

/-- The factor and the offset of row q of K_A in its closed form (R198). -/
def indexForm : Nat → Nat × Nat
  | 0 => (1, 0)
  | 1 => (5, 1)
  | 2 => (3, 5)
  | _ => (7, 0)

/-- Row q of K_A is its closed form (R198). -/
theorem indexA_row : ∀ q < 4, ∀ j < 16,
    indexA (16 * q + j) = ((indexForm q).1 * j + (indexForm q).2) % 16 := by decide

theorem indexForm_coprime : ∀ q < 4, Nat.Coprime 16 (indexForm q).1 := by decide

/-- Settles O31: every row is affine modulo 16, and its factor is odd. -/
theorem messageIndexClosedForms : Obligations.MessageIndexClosedForms := by
  refine ⟨fun j hj => ⟨?_, ?_, ?_, ?_⟩, fun q hq => ?_⟩
  · simpa [indexForm, Nat.mod_eq_of_lt hj] using indexA_row 0 (by omega) j hj
  · exact indexA_row 1 (by omega) j hj
  · exact indexA_row 2 (by omega) j hj
  · exact indexA_row 3 (by omega) j hj
  · rw [List.map_congr_left fun j hj => indexA_row q hq j (List.mem_range.1 hj)]
    exact affine_mod_perm _ (indexForm_coprime q hq) (by omega)

/-- Step r of group q rotates by entry r mod 4 of the group's row of S_A (R197). -/
theorem rotA_group (q : Nat) {r : Nat} (hr : r < 16) :
    rotA (16 * q + r) = (tableSA.getD q []).getD (r % 4) 0 := by
  rw [rotA, show (16 * q + r) / 16 = q by omega, show (16 * q + r) % 4 = r % 4 by omega]

theorem rotA_range : ∀ i < 64, 4 ≤ rotA i ∧ rotA i ≤ 23 := by decide

/-- The constants of the 64 steps are T_A in order (R196). -/
theorem constA_range : (List.range 64).map constA = tableTA := rfl

/-- Settles O32: the rotation of a step depends on its group and its place modulo 4 only. -/
theorem rotationsAndConstantsOfA : Obligations.RotationsAndConstantsOfA := by
  refine ⟨rfl, fun q j k _ hj hk => ?_, rotA_range, constA_range⟩
  rw [Nat.add_assoc, rotA_group q (by omega), rotA_group q (by omega), Nat.mul_add_mod]

end Sys2Proof.Machine
end

section
/-! One step of A (spec/42_compress_a.md R191, R199): its rotation, and the round function of its group. -/

namespace Sys2Proof.Machine

/-- The formula of R11 is the rotation of the 32 bits. -/
theorem rol_eq_rotateLeft (x : Word) {n : Nat} (hn : n < 32) : rol x n = x.rotateLeft n := by
  rw [rol, BitVec.rotateLeft_def, Nat.mod_eq_of_lt hn]

/-- Step i takes the round function of the group its number lies in (R191). -/
theorem roundA_group (x y z : Word) {i : Nat} (hi : i < 64) : roundA (i / 16) x y z =
    if i < 16 then fA0 x y z else if i < 32 then fA1 x y z else if i < 48 then fA2 x y z else fA3 x y z := by
  split_ifs with h16 h32 h48
  · rw [show i / 16 = 0 by omega, roundA]
  · rw [show i / 16 = 1 by omega, roundA]
  · rw [show i / 16 = 2 by omega, roundA]
  · rw [show i / 16 = 3 by omega]; rfl

/-- Settles O33: the amount of every step is below 32, so its `rol` is a rotation; the other registers are only moved. -/
theorem stepAWritesOneRegister : Obligations.StepAWritesOneRegister := by
  refine ⟨fun X r i hi => ⟨?_, rfl, rfl, rfl⟩, by decide⟩
  have hrot : rotA i < 32 := by
    obtain ⟨-, hle⟩ := rotA_range i hi
    omega
  rw [stepA, rol_eq_rotateLeft _ hrot, roundA_group _ _ _ hi]

end Sys2Proof.Machine
end

section
/-! The schedule of B (spec/43_compress_b.md R256, R257): its recurrence, and the 16-word circular buffer that holds the
latest words of it. -/

namespace Sys2Proof.Machine

theorem scheduleB_length (blk : List Byte) : (scheduleB blk).length = 80 := schedule_length blk 64

/-- The first 16 words of the schedule are the decoded block (R256). -/
theorem scheduleB_getD_decoded (blk : List Byte) {t : Nat} (ht : t < 16) :
    (scheduleB blk).getD t 0 = (wordsB blk).getD t 0 :=
  schedule_prefix blk 0 64 t ht (Nat.zero_le 64)

theorem wordsB_getD (blk : List Byte) {t : Nat} (ht : t < 16) : (wordsB blk).getD t 0 = be32 blk (4 * t) := by
  simp [wordsB, List.getD_eq_getElem?_getD, ht]

/-- A later word of the schedule is the schedule word of the whole sequence (R256). -/
theorem scheduleB_getD_expanded (blk : List Byte) {t : Nat} (h16 : 16 ≤ t) (h80 : t < 80) :
    (scheduleB blk).getD t 0 = scheduleWord (scheduleB blk) t := by
  obtain ⟨n, rfl⟩ := Nat.exists_eq_add_of_le' h16
  exact schedule_word blk n 64 (by omega)

/-- Settles O35: the expanded part is read off a schedule that later steps only extend. -/
theorem scheduleFollowsItsRecurrence : Obligations.ScheduleFollowsItsRecurrence := fun blk =>
  ⟨scheduleB_length blk, fun _ ht => (scheduleB_getD_decoded blk ht).trans (wordsB_getD blk ht),
    fun _ h16 h80 => scheduleB_getD_expanded blk h16 h80⟩

/-- Before step t the circular buffer holds, at k mod 16, the word k of the schedule ws for the latest 16 numbers k:
those below t, and before step 16 those of the decoded block (R257). -/
structure HoldsLatest (ws : List Word) (t : Nat) (wc : List Word) : Prop where
  length_eq : wc.length = 16
  getD_mod : ∀ k, t ≤ k + 16 → k < max 16 t → wc.getD (k % 16) 0 = ws.getD k 0

theorem holdsLatest_wordsB (blk : List Byte) : HoldsLatest (scheduleB blk) 0 (wordsB blk) where
  length_eq := wordsB_length blk
  getD_mod k _ hk := by
    have hk16 : k < 16 := hk
    rw [Nat.mod_eq_of_lt hk16, scheduleB_getD_decoded blk hk16]

section
variable {ws wc : List Word} {t : Nat}

theorem circularStep_of_lt (ht : t < 16) : circularStep wc t = (wc.getD t 0, wc) := if_pos ht

/-- From step 16 on the four residues that a step reads are those of the words 3, 8, 14 and 16 back, so it makes the
schedule word and puts it in the place of the oldest (R257). -/
theorem HoldsLatest.circularStep_of_ge (hw : HoldsLatest ws t wc) (ht : 16 ≤ t) :
    circularStep wc t = (scheduleWord ws t, wc.set (t % 16) (scheduleWord ws t)) := by
  have hback (i j : Nat) (hij : i + j = 16) (hj : 1 ≤ j) : wc.getD ((t + i) % 16) 0 = ws.getD (t - j) 0 := by
    rw [← hw.getD_mod (t - j) (by omega) (by omega), show t + i = t - j + 16 by omega, Nat.add_mod_right]
  have holdest : wc.getD (t % 16) 0 = ws.getD (t - 16) 0 := hback 0 16 rfl (by omega)
  rw [circularStep, if_neg (Nat.not_lt.2 ht), hback 13 3 rfl (by omega), hback 8 8 rfl (by omega),
    hback 2 14 rfl (by omega), holdest, scheduleWord]

/-- Writing word t over the oldest one leaves the latest 16. -/
theorem HoldsLatest.set (hw : HoldsLatest ws t wc) (ht : 16 ≤ t) :
    HoldsLatest ws (t + 1) (wc.set (t % 16) (ws.getD t 0)) where
  length_eq := by rw [List.length_set, hw.length_eq]
  getD_mod k hlow hhigh := by
    rw [List.getD_eq_getElem?_getD]
    by_cases hkt : k = t
    · have hlt : t % 16 < wc.length := by rw [hw.length_eq]; omega
      rw [hkt, List.getElem?_set_self hlt, Option.getD_some]
    · rw [List.getElem?_set_ne (by omega), ← List.getD_eq_getElem?_getD, hw.getD_mod k (by omega) (by omega)]

/-- Where the schedule follows its recurrence, a step makes word t of it, and the buffer after the step holds the latest
words again. -/
theorem HoldsLatest.step (hw : HoldsLatest ws t wc) (hrec : 16 ≤ t → ws.getD t 0 = scheduleWord ws t) :
    (circularStep wc t).1 = ws.getD t 0 ∧ HoldsLatest ws (t + 1) (circularStep wc t).2 := by
  by_cases ht : t < 16
  · rw [circularStep_of_lt ht]
    have hword := hw.getD_mod t (by omega) (by omega)
    rw [Nat.mod_eq_of_lt ht] at hword
    exact ⟨hword, hw.length_eq, fun k hlow hhigh => hw.getD_mod k (by omega) (by omega)⟩
  · have h16 : 16 ≤ t := Nat.not_lt.1 ht
    rw [hw.circularStep_of_ge h16, ← hrec h16]
    exact ⟨rfl, hw.set h16⟩

end

/-- The words of the remaining steps are the rest of the schedule. -/
theorem HoldsLatest.circularWords_eq_drop {blk : List Byte} {n : Nat} {wc : List Word} {t : Nat}
    (hw : HoldsLatest (scheduleB blk) t wc) (htn : t + n = 80) :
    circularWords wc t n = (scheduleB blk).drop t := by
  induction n generalizing wc t with
  | zero => rw [List.drop_of_length_le (by rw [scheduleB_length]; omega)]; rfl
  | succ n ih =>
    have hlt : t < (scheduleB blk).length := by rw [scheduleB_length]; omega
    obtain ⟨hword, hnext⟩ := hw.step fun h16 => scheduleB_getD_expanded blk h16 (by omega)
    rw [List.drop_eq_getElem_cons hlt, ← List.getD_eq_getElem _ 0 hlt, ← hword, ← ih hnext (by omega)]
    rfl

/-- Settles O36: the buffer starts with the decoded block, and every step keeps the latest 16 words in it. -/
theorem circularBufferGivesTheSchedule : Obligations.CircularBufferGivesTheSchedule := fun blk =>
  (holdsLatest_wordsB blk).circularWords_eq_drop rfl

end Sys2Proof.Machine
end

section
/-! One step of B (spec/43_compress_b.md R251, R255, R258): the round function and the constant of its group. -/

namespace Sys2Proof.Machine

/-- Step t takes the round function and the constant of the group its number lies in (R251, R255). -/
theorem groupB (x y z : Word) {t : Nat} (ht : t < 80) :
    roundB (t / 20) x y z = (if t < 20 then fB0 x y z else if t < 40 then fB1 x y z
      else if t < 60 then fB2 x y z else fB3 x y z) ∧
    constB t = (if t < 20 then 0x5a827999 else if t < 40 then 0x6ed9eba1
      else if t < 60 then 0x8f1bbcdc else 0xca62c1d6) := by
  rw [constB]
  split_ifs with h20 h40 h60
  · rw [show t / 20 = 0 by omega]; exact ⟨rfl, rfl⟩
  · rw [show t / 20 = 1 by omega]; exact ⟨rfl, rfl⟩
  · rw [show t / 20 = 2 by omega]; exact ⟨rfl, rfl⟩
  · rw [show t / 20 = 3 by omega]; exact ⟨rfl, rfl⟩

/-- Settles O34: both amounts are below 32, so each `rol` is a rotation; the other registers are only moved. -/
theorem stepBShiftsTheRegisters : Obligations.StepBShiftsTheRegisters := by
  refine ⟨fun W r t ht => ⟨?_, rfl, rol_eq_rotateLeft r.b (by omega), rfl, rfl⟩, by decide⟩
  obtain ⟨hround, hconst⟩ := groupB r.b r.c r.d ht
  rw [stepB, rol_eq_rotateLeft r.a (by omega), hround, hconst]

end Sys2Proof.Machine
end

section
/-! FINISH (spec/44_finalizer.md R300 to R311): the padding ends a block, and what is latched is the digest of the
valid bytes with their padding, which in a session is the digest of the whole input. -/

namespace Sys2Proof.Machine

/-- Settles O38: the zeros reach 56 mod 64, and the length of the padding follows from their number. -/
theorem paddingEndsABlock : Obligations.PaddingEndsABlock := by
  intro alg f total hf
  refine ⟨(119 - f) % 64, Nat.mod_lt _ (by decide), rfl, by omega, rfl, ?_⟩
  rw [padding_length]
  split <;> omega

/-- The bit count is the byte count times 8, modulo `2^64` (R301). -/
theorem bitCount_toNat (total : Word64) : (bitCount total).toNat = total.toNat * 8 % 2 ^ 64 := by
  rw [bitCount, BitVec.toNat_shiftLeft, Nat.shiftLeft_eq]

/-- The bit count is the low 61 bits of the byte count, then three zeros. -/
theorem bitCount_eq_append (total : Word64) : bitCount total = total.extractLsb' 0 61 ++ (0 : BitVec 3) := by
  apply BitVec.eq_of_toNat_eq
  rw [bitCount_toNat, toNat_append_add, BitVec.extractLsb'_toNat, Nat.shiftRight_zero]
  change _ = total.toNat % 2 ^ 61 * 2 ^ 3 + 0
  omega

theorem le64bytes_getD (v : Word64) {j : Nat} (hj : j < 8) : (le64bytes v).getD j 0 = v.extractLsb' (8 * j) 8 := by
  simp [le64bytes, List.getD_eq_getElem?_getD, hj]

theorem be64bytes_getD (v : Word64) {j : Nat} (hj : j < 8) :
    (be64bytes v).getD j 0 = v.extractLsb' (56 - 8 * j) 8 := by
  simp [be64bytes, List.getD_eq_getElem?_getD, hj]

/-- Settles O39: the bit count by its number, and the length field of either order byte by byte. -/
theorem lengthFieldIsTheBitCount : Obligations.LengthFieldIsTheBitCount := by
  intro total
  refine ⟨?_, bitCount_eq_append total, lengthField_length 0 total, lengthField_length 1 total,
    fun j hj => ⟨le64bytes_getD _ hj, be64bytes_getD _ hj⟩⟩
  apply BitVec.eq_of_toNat_eq
  rw [bitCount_toNat, BitVec.toNat_mul]
  rfl

/-- A string of a whole number of blocks is its blocks. -/
theorem completeBlocks_flatten_of_mod {s : List Byte} (h : s.length % 64 = 0) : (completeBlocks s).flatten = s := by
  have htail : tailBytes s = [] := List.length_eq_zero_iff.1 ((tailBytes_length s).trans h)
  have hflat := completeBlocks_flatten s
  rwa [htail, List.append_nil] at hflat

theorem length_validBytes_padding (c : CoreState) :
    (c.validBytes ++ padding c.alg c.fill c.total).length % 64 = 0 := by
  rw [List.length_append, validBytes_length, fill_padding]

/-- FINISH responds with the hex length (R311). -/
theorem hexLength_setWidth (alg : BitVec 1) : (hexLength alg).setWidth 32 = if alg = 0 then 32 else 40 := by
  rw [hexLength]
  split <;> rfl

theorem decode_eq_finish_iff {w : Word64} : decode w = some .finish ↔ w = 0x2000000000000000 := by
  rw [decode_eq_some_iff, and_iff_right (show Instr.finish.wf = true from rfl), eq_comm]
  rfl

/-- Settles O42: the padded valid bytes are a whole number of blocks, and FINISH latches what compressing them gives. -/
theorem finishLatchesTheDigestAndWipes : Obligations.FinishLatchesTheDigestAndWipes := by
  refine ⟨fun w => decode_eq_finish_iff, fun s hp hm => ?_⟩
  refine ⟨completeBlocks_flatten_of_mod (length_validBytes_padding s.core), ?_⟩
  rw [exec_finish_absorb hp, finishedCore_of_wf hm, hexLength_setWidth]
  rfl

/-- Settles O43: a session is in ABSORB, where FINISH completes, and it latches the digest of the whole input. -/
theorem finishGivesTheDigestOfTheInput : Obligations.FinishGivesTheDigestOfTheInput := by
  intro s alg input h
  refine ⟨_, exec_finish_absorb h.absorbing, h.finishedCore_dg, ?_, finishedCore_phase _, ?_⟩
  · rw [answered_core, finishedCore_dlen, h.tag]
  · rw [answered_core, finishedCore_alg, h.tag]

end Sys2Proof.Machine
end

section
/-! The digest reads in DONE (spec/44_finalizer.md R307 to R315): the words of RDHEX and RDRAW, the bytes and characters
of a latched digest, and which indices are in range. -/

namespace Sys2Proof

theorem decode_eq_rdhex_iff {w : Word64} {j : Nat} : decode w = some (.rdhex j) ↔
    w &&& 0xFFFFFFFFFFFFFFF0 = 0x3000000000000000 ∧ (w.extractLsb' 0 4).toNat = j := by
  rw [decode_eq_some_iff_mnemonic, Instr.mnemonic, readOperands, Instr.rdhex.injEq]
  exact and_congr_left' beq_iff_eq

theorem decode_eq_rdraw_iff {w : Word64} {j : Nat} : decode w = some (.rdraw j) ↔
    w &&& 0xFFFFFFFFFFFFFFF0 = 0x3100000000000000 ∧ (w.extractLsb' 0 4).toNat = j := by
  rw [decode_eq_some_iff_mnemonic, Instr.mnemonic, readOperands, Instr.rdraw.injEq]
  exact and_congr_left' beq_iff_eq

end Sys2Proof

namespace Sys2Proof.Machine

section
variable {i j : Nat} (h : StateWords)

/-- Byte 4i + j of an A digest is byte j of H[i] from the low end (R307). -/
theorem digestBytes_A_getD (hi : i < 4) (hj : j < 4) :
    (digestBytes 0 h).toList.getD (4 * i + j) 0 = byteLE (h.get i) j := by
  rw [digestBytes_getD 0 h _ (by omega), if_pos rfl, if_pos (by omega), show (4 * i + j) / 4 = i by omega,
    show (4 * i + j) % 4 = j by omega]

/-- Byte 4i + j of a B digest is byte j of H[i] from the high end (R308). -/
theorem digestBytes_B_getD (hi : i < 5) (hj : j < 4) :
    (digestBytes 1 h).toList.getD (4 * i + j) 0 = byteBE (h.get i) j := by
  rw [digestBytes_getD 1 h _ (by omega), if_neg (by decide), show (4 * i + j) / 4 = i by omega,
    show (4 * i + j) % 4 = j by omega]

/-- A group of four bytes of a string, given byte by byte, is the word of those bytes (R12). -/
theorem le32_group {s : List Byte} {byte : Nat → Byte} (hs : ∀ k, k < 4 → s.getD (4 * j + k) 0 = byte k) :
    le32 s (4 * j) = byte 3 ++ byte 2 ++ byte 1 ++ byte 0 := by
  rw [le32_eq_append, ← hs 3 (by decide), ← hs 2 (by decide), ← hs 1 (by decide), ← hs 0 (by decide)]
  rfl

/-- The groups of an A digest are the state words (R314). -/
theorem le32_digestBytes_A (hj : j < 4) : le32 (digestBytes 0 h).toList (4 * j) = h.get j := by
  rw [le32_group fun _ hk => digestBytes_A_getD h hj hk]
  exact (word_of_bytes _).symm

/-- The groups of a B digest are the state words with their bytes reversed (R314). -/
theorem le32_digestBytes_B (hj : j < 5) : le32 (digestBytes 1 h).toList (4 * j) =
    (h.get j).extractLsb' 0 8 ++ (h.get j).extractLsb' 8 8 ++ (h.get j).extractLsb' 16 8 ++
      (h.get j).extractLsb' 24 8 :=
  le32_group (byte := byteBE (h.get j)) fun _ hk => digestBytes_B_getD h hj hk

end

/-- Settles O40: the bytes of a word by its place in the latch, and beyond the 16 bytes of A zeros. -/
theorem digestBytesAreTheStateWords : Obligations.DigestBytesAreTheStateWords := by
  intro h j hj
  refine ⟨fun i hi => digestBytes_A_getD h hi hj, ?_, fun i hi => digestBytes_B_getD h hi hj⟩
  rw [digestBytes_getD 0 h _ (by omega), if_pos rfl, if_neg (by omega)]

/-- The number of a hex digit: from '0' up to 9, and from 'a' after that (R309). -/
theorem hexDigit_toNat (v : BitVec 4) : (hexDigit v).toNat = if v.toNat ≤ 9 then 48 + v.toNat else 87 + v.toNat := by
  revert v
  decide

/-- Settles O41: by the numbers of the digits, of which those from 'a' on lie above those up to '9'. -/
theorem hexDigitsAreLowercase : Obligations.HexDigitsAreLowercase := by
  refine ⟨fun v hv => if_pos hv, fun v hv => ?_, fun v w h => ?_⟩
  · have hlt : 9 < v.toNat := hv
    apply BitVec.eq_of_toNat_eq
    rw [hexDigit_toNat, if_neg (by omega), BitVec.toNat_add, BitVec.toNat_setWidth]
    change _ = (87 + _) % _
    omega
  · have hnum := congrArg BitVec.toNat h
    rw [hexDigit_toNat, hexDigit_toNat] at hnum
    apply BitVec.eq_of_toNat_eq
    have := v.isLt
    have := w.isLt
    split_ifs at hnum <;> omega

section
variable {s : State} {bytes : List Byte} {j n : Nat}

theorem getD_take (hj : j < n) : (bytes.take n).getD j 0 = bytes.getD j 0 := by
  rw [List.getD_eq_getElem?_getD, List.getElem?_take_of_lt hj, List.getD_eq_getElem?_getD]

/-- A group inside the first n bytes is read off the whole string. -/
theorem le32_take (hj : 4 * j + 4 ≤ n) : le32 (bytes.take n) (4 * j) = le32 bytes (4 * j) := by
  rw [le32_group fun k hk => getD_take (show 4 * j + k < n by omega)]
  exact (le32_group fun _ _ => rfl).symm

/-- The characters of byte b of a group, high nibble first, in the hex form of the first n bytes (R310, R313). -/
theorem le32_hexOf_take {b : Nat} (hn : n ≤ bytes.length) (hj : 2 * j + b < n) (hb : b < 2) :
    (le32 (hexOf (bytes.take n)) (4 * j)).extractLsb' (16 * b) 8 =
      hexDigit ((bytes.getD (2 * j + b) 0).extractLsb' 4 4) ∧
    (le32 (hexOf (bytes.take n)) (4 * j)).extractLsb' (16 * b + 8) 8 =
      hexDigit ((bytes.getD (2 * j + b) 0).extractLsb' 0 4) := by
  obtain ⟨hhigh, hlow⟩ := hexOf_getD (bytes.take n) (2 * j + b) (by rwa [List.length_take_of_le hn])
  rw [← getD_take hj, ← hhigh, ← hlow, show 16 * b = 8 * (2 * b) by omega,
    show 8 * (2 * b) + 8 = 8 * (2 * b + 1) by omega, show 2 * (2 * j + b) = 4 * j + 2 * b by omega]
  exact ⟨le32_byte _ _ _ (by omega), le32_byte _ _ _ (by omega)⟩

/-- The two lengths of a digest are those of the two algorithms (R306). -/
theorem exists_eq_hexLength {d : BitVec 6} (hd : d = 32 ∨ d = 40) : ∃ alg, d = hexLength alg :=
  hd.elim (fun h => ⟨0, h⟩) (fun h => ⟨1, h⟩)

/-- RDRAW in DONE and in range answers the four bytes of its group (R314). -/
theorem exec_rdraw_done {alg : BitVec 1} (hp : s.core.phase = 2) (hlen : s.core.dlen = hexLength alg)
    (hj : j < (hexLength alg).toNat / 8) :
    exec (.rdraw j) s = .next (answered s s.core (le32 s.core.dg.toList (4 * j))) := by
  have hlatch := hexLength_bytes_le alg
  rw [← hlen] at hj hlatch
  rw [← le32_take (n := s.core.dlen.toNat / 2) (by omega)]
  exact readGroup_ok hp hj (latchRead_ok _ hlatch)

end

/-- Settles O44: the words by the row of RDHEX, and the four characters of the group by the two bytes they spell. -/
theorem rdhexReturnsFourCharacters : Obligations.RdhexReturnsFourCharacters := by
  refine ⟨fun w => ?_, fun w j h => (decode_eq_rdhex_iff.1 h).2.symm, fun s j hp hd hj => ?_⟩
  · simp only [decode_eq_rdhex_iff, exists_and_left, exists_eq', and_true]
  · obtain ⟨alg, hlen⟩ := exists_eq_hexLength hd
    obtain ⟨hgroups, hbytes⟩ := hexLength_groups alg
    rw [hlen, hgroups] at hj
    have hlatch : (hexLength alg).toNat / 2 ≤ s.core.dg.toList.length := by simpa using hexLength_bytes_le alg
    obtain ⟨h0, h1⟩ := le32_hexOf_take (j := j) (b := 0) hlatch (by omega) (by decide)
    obtain ⟨h2, h3⟩ := le32_hexOf_take (j := j) (b := 1) hlatch (by omega) (by decide)
    exact ⟨_, exec_rdhex_done hp hlen hj, h0, h1, h2, h3⟩

/-- Settles O45: the words by the row of RDRAW, and the four bytes of the group. -/
theorem rdrawReturnsFourBytes : Obligations.RdrawReturnsFourBytes := by
  refine ⟨fun w => ?_, fun w j h => (decode_eq_rdraw_iff.1 h).2.symm, fun s j hp hd hj => ?_⟩
  · simp only [decode_eq_rdraw_iff, exists_and_left, exists_eq', and_true]
  · obtain ⟨alg, hlen⟩ := exists_eq_hexLength hd
    exact ⟨_, exec_rdraw_done hp hlen (hlen ▸ hj), fun k hk => le32_byte _ _ k hk⟩

/-- Settles O46: RDRAW answers a group of the latch, and the groups of a digest are its state words. -/
theorem rdrawAfterFinishIsTheFinalWord : Obligations.RdrawAfterFinishIsTheFinalWord := by
  intro h s j hp hlen hdg
  refine ⟨fun ha hj => ?_, fun ha hj => ?_⟩
  · rw [ha] at hlen hdg
    rw [exec_rdraw_done hp hlen hj, hdg, le32_digestBytes_A h hj]
  · rw [ha] at hlen hdg
    rw [exec_rdraw_done hp hlen hj, hdg, le32_digestBytes_B h hj]

/-- Settles O47: a success of RDHEX is an answer, which a digest read gives exactly in range. -/
theorem digestLengthInDone : Obligations.DigestLengthInDone := by
  intro s hs hp
  have hlen := hs.doneLength hp
  refine ⟨hlen, fun j => ⟨?_, fun hj => ⟨_, _, exec_rdhex_done hp hlen hj, rfl⟩⟩⟩
  rintro ⟨t, d, h, hr⟩
  have hn : ¬ NeedsSession (.rdhex j) := fun h => h.not_isDigestRead ⟨j, .inl rfl⟩
  have hc : ¬ ClearsErr (.rdhex j) := fun h => h.not_isDigestRead ⟨j, .inl rfl⟩
  obtain rfl := (exec_effect h).eq_answered_of_ok hn hc hr
  obtain ⟨-, hj, -⟩ := readGroup_answered_iff.1 (show execRdhex j s = _ from h)
  obtain ⟨hgroups, -⟩ := hexLength_groups s.core.alg
  rwa [hlen, hgroups] at hj

end Sys2Proof.Machine
end

section
/-! What leaves the history of a session as it was (spec/44_finalizer.md R316, spec/60_exceptions.md R381): failures,
reads and NOP. -/

namespace Sys2Proof.Machine

section
variable {s : State} {alg : BitVec 1} {input : List Byte}

theorem Absorbed.phase_ne_three (h : Absorbed alg input s.core) : s.core.phase ≠ 3 := by
  rw [h.absorbing]
  decide

/-- A failure writes ERR only, of which the history does not speak. -/
theorem Absorbed.of_failed (h : Absorbed alg input s.core) (e : BitVec 8) : Absorbed alg input (failed s e).core :=
  ⟨h.bufWf, h.absorbing, h.tag, h.counted, h.words, h.valid⟩

end

/-- Settles O52: a digest read in ABSORB fails, as an illegal word does, and the other reads and NOP leave the core. -/
theorem otherCommandsKeepTheHistory : Obligations.OtherCommandsKeepTheHistory := by
  intro s alg input h
  have h3 := h.phase_ne_three
  refine ⟨fun i hn hc => ?_, fun w rest hp hd => ?_⟩
  · rcases isFeed_or i with hi | hi | ⟨j, rfl | rfl⟩ | hi | rfl | rfl | rfl | rfl
    · exact absurd (.inl hi) hn
    · exact absurd (.inr hi) hn
    · exact ⟨_, inDone_other (.inr h.absorbing) _, h.of_failed _⟩
    · exact ⟨_, inDone_other (.inr h.absorbing) _, h.of_failed _⟩
    · exact absurd hi hc
    all_goals exact ⟨_, inAnyPhase_ok h3 _, h⟩
  · exact ⟨_, failsIllegal_of_decode hd s rest hp h3, h.of_failed _⟩

end Sys2Proof.Machine
end

section
/-! The session commands (spec/45_session.md R350 to R356): their words, what a set operand bit does, and the core
that each leaves. -/

namespace Sys2Proof

/-- A well-formed command is decoded from its own word only (R117). -/
theorem decode_eq_some_iff_eq_encode {w : Word64} {i : Instr} (hi : i.wf = true) :
    decode w = some i ↔ w = encode i := by
  rw [decode_eq_some_iff, and_iff_right hi, eq_comm]

end Sys2Proof

namespace Sys2Proof.Machine

/-- The opcode of a mnemonic without operands, with any bit of `cmd[55:0]` set, fails as illegal (R112, R116). -/
theorem failsIllegal_of_no_operands {w : Word64} {m : Mnemonic} (hm : operandBits m = 0)
    (hopc : opcodeByte w = opcodeOf m) (hset : w.extractLsb' 0 56 ≠ 0) : FailsIllegal w := by
  refine failsIllegal_of_decode ((decode_eq_none_iff_of_opcode hopc).2 ?_)
  rwa [hm]

/-- Settles O11: the one word of NOP, its opcode with a bit set, and its answer, which leaves the core. -/
theorem nopChangesNothing : Obligations.NopChangesNothing :=
  ⟨fun _ => decode_eq_some_iff_eq_encode rfl, fun _ => failsIllegal_of_no_operands (m := .nop) rfl,
    fun _ h3 => inAnyPhase_ok h3 _⟩

/-- A session starts alike from every core. -/
theorem startSession_eq (alg : BitVec 1) (c : CoreState) : startSession alg c =
    { phase := 1, alg := alg, h := initialWords alg, buf := [], total := 0, dg := Vector.replicate 20 0, dlen := 0,
      err := 0 } :=
  rfl

/-- START issued on the session it has just started leaves the core (R351, R352). -/
theorem exec_startOf_startSession {s : State} {alg : BitVec 1} {c : CoreState} (hs : s.core = startSession alg c) :
    exec (startOf alg) s = .next (answered s s.core 0) := by
  have h3 : s.core.phase ≠ 3 := by
    rw [hs, startSession_phase]
    decide
  rw [exec_startOf h3, hs, startSession_eq, startSession_eq]

/-- STAT right after a START shows ABSORB and the algorithm, with every other field 0 (R49). -/
theorem startSession_stat (alg : BitVec 1) (c : CoreState) :
    (startSession alg c).stat = 1 ||| alg.setWidth 32 <<< 2 := by
  rw [stat_eq_or, startSession_eq]
  revert alg
  decide

/-- START of either algorithm, from any phase the spec gives, starts its session, and starts it alike once more
(R351, R352). -/
theorem exec_startOf_opens_session {s : State} (h3 : s.core.phase ≠ 3) (alg : BitVec 1) :
    ∃ t, exec (startOf alg) s = .next t ∧ t = answered s (startSession alg s.core) 0 ∧
      t.core.stat = 1 ||| alg.setWidth 32 <<< 2 ∧ exec (startOf alg) t = .next (answered t t.core 0) :=
  ⟨_, exec_startOf h3 alg, rfl, startSession_stat alg s.core, exec_startOf_startSession rfl⟩

/-- Settles O12: the one word of START_A, its opcode with a bit set, and the session of A it starts. -/
theorem startAOpensASession : Obligations.StartAOpensASession :=
  ⟨fun _ => decode_eq_some_iff_eq_encode rfl, fun _ => failsIllegal_of_no_operands (m := .startA) rfl,
    fun _ h3 => exec_startOf_opens_session h3 0⟩

/-- Settles O13: the one word of START_B, its opcode with a bit set, and the session of B it starts. -/
theorem startBOpensASession : Obligations.StartBOpensASession :=
  ⟨fun _ => decode_eq_some_iff_eq_encode rfl, fun _ => failsIllegal_of_no_operands (m := .startB) rfl,
    fun _ h3 => exec_startOf_opens_session h3 1⟩

/-- WIPE leaves the reset state of the core, in the phases the spec gives (R353). -/
theorem exec_wipe {s : State} (h3 : s.core.phase ≠ 3) : exec .wipe s = .next (answered s CoreState.reset 0) :=
  inAnyPhase_ok h3 _

/-- A digest read in IDLE is not ready, whatever its index (R385). -/
theorem exec_rdhex_idle {s : State} (hp : s.core.phase = 0) (j : Nat) : exec (.rdhex j) s = .next (failed s 0x04) :=
  inDone_other (.inl hp) _

theorem reset_stat : CoreState.reset.stat = 0 := rfl

/-- Settles O14: the one word of WIPE, its opcode with a bit set, and the reset core it leaves, which is in IDLE,
where WIPE leaves it again and a digest read is not ready. -/
theorem wipeLeavesTheResetState : Obligations.WipeLeavesTheResetState :=
  ⟨fun _ => decode_eq_some_iff_eq_encode rfl, fun _ => failsIllegal_of_no_operands (m := .wipe) rfl,
    fun _ h3 => ⟨_, exec_wipe h3, rfl, rfl, reset_stat, exec_wipe (by simp), exec_rdhex_idle rfl 0⟩⟩

/-- Settles O15: the one word of each read, and its answer, which leaves the core. -/
theorem registerReadsReturnTheirRegister : Obligations.RegisterReadsReturnTheirRegister :=
  ⟨fun _ => ⟨decode_eq_some_iff_eq_encode rfl, decode_eq_some_iff_eq_encode rfl, decode_eq_some_iff_eq_encode rfl⟩,
    fun _ h3 => ⟨inAnyPhase_ok h3 _, inAnyPhase_ok h3 _, inAnyPhase_ok h3 _⟩⟩

end Sys2Proof.Machine
end

section
/-! How a command fails (spec/60_exceptions.md R380 to R387): the codes of FEED, FINISH and the digest reads by phase,
and that a failure changes ERR only. -/

namespace Sys2Proof.Machine

/-- Settles O18: a command answers OK or fails, and it is not OK where the status is nonzero. -/
theorem failingCommandChangesOnlyErr : Obligations.FailingCommandChangesOnlyErr := by
  intro i s t r h hr hne
  obtain ⟨c, d, rfl⟩ | ⟨e, rfl, -⟩ := (exec_effect h).answered_or_failed
  · cases hr
    exact absurd rfl hne
  · cases hr
    rfl

/-- The commands that need a session check the phase before anything else (R383, R384). -/
theorem NeedsSession.exec_eq_inAbsorb {i : Instr} (hi : NeedsSession i) (s : State) :
    ∃ k, exec i s = inAbsorb s k := by
  obtain hi | rfl := hi
  · exact ⟨_, exec_feed hi s⟩
  · exact ⟨_, execFinish_eq s⟩

/-- Settles O19: by the phase check, which does not look at the work of the command outside ABSORB. -/
theorem feedAndFinishNeedASession : Obligations.FeedAndFinishNeedASession := by
  intro i s hi
  obtain ⟨k, hk⟩ := hi.exec_eq_inAbsorb s
  rw [hk]
  exact ⟨fun hp => inAbsorb_idle hp k, fun hp => inAbsorb_done hp k⟩

/-- In DONE a group outside the digest is out of range, whatever the latch holds (R386). -/
theorem readGroup_out_of_range {form : Except Fault (List Byte)} {groups idx : Nat} {s : State}
    (hp : s.core.phase = 2) (hi : groups ≤ idx) : readGroup form groups idx s = .next (failed s 0x05) := by
  rw [readGroup_def, inDone_done hp, if_pos hi, raiseError_eq]

/-- Settles O20: the phase is checked first, then the index. -/
theorem digestReadsFailOutsideDoneOrRange : Obligations.DigestReadsFailOutsideDoneOrRange := fun _ _ =>
  ⟨fun hp => ⟨inDone_other hp _, inDone_other hp _⟩, readGroup_out_of_range, readGroup_out_of_range⟩

end Sys2Proof.Machine
end

section
/-! The model's fault bit (spec/60_exceptions.md R399), and a platform of several instances (R396). -/

namespace Sys2Proof.Machine

/-- The machine t is s after one response, whose error, if it carries one, the fault bit records (R111, R399). -/
def RespondsOnce (s t : State) : Prop :=
  ∃ r, t.responses = r :: s.responses ∧ t.faultSeen = (s.faultSeen || r.status != 0x00)

theorem RespondsOnce.of_answered (s : State) (c : CoreState) (d : Word) : RespondsOnce s (answered s c d) :=
  ⟨_, rfl, by simp⟩

theorem RespondsOnce.of_failed (s : State) {e : BitVec 8} (he : e ≠ 0x00) : RespondsOnce s (failed s e) :=
  ⟨_, rfl, by rw [failed_faultSeen, bne_iff_ne.2 he, Bool.or_true]⟩

/-- Every effect of a command is one response; the codes of the failures are not 0 (R380). -/
theorem Effect.respondsOnce {i : Instr} {s t : State} (h : Effect i s t) : RespondsOnce s t := by
  cases h with
  | noSession | misuse | notReady | range => exact .of_failed s (by decide)
  | read | startA | startB | wipe | fed | finished => exact .of_answered s _ _

/-- The responses delivered since s are the one response. -/
theorem RespondsOnce.faultSeen_eq {s t : State} (h : RespondsOnce s t) : t.faultSeen =
    (s.faultSeen || (t.responses.take (t.responses.length - s.responses.length)).any fun r => r.status != 0x00) := by
  obtain ⟨r, hr, hf⟩ := h
  simp [hr, hf]

/-- Settles O57: a command and an illegal word respond once, and a reset neither responds nor touches the fault bit. -/
theorem faultBitRecordsEveryError : Obligations.FaultBitRecordsEveryError := by
  intro s t h
  obtain ⟨w, rest, i, -, -, he⟩ | ⟨w, rest, -, -, -, rfl⟩ | ⟨rest, -, rfl⟩ := step_cases h
  · exact (exec_effect he).respondsOnce.faultSeen_eq
  · exact (RespondsOnce.of_failed { s with pending := rest } (by decide)).faultSeen_eq
  · simp

/-- The inversion of a platform's step: the machine at place k is there, goes on, and is put back in its place (R396). -/
theorem Platform.step_cases {p q : Platform} {k : Nat} (h : Platform.step k p = .next q) :
    ∃ s t, p.instances[k]? = some s ∧ Machine.step s = .next t ∧ q = ⟨p.instances.set k t⟩ := by
  unfold Platform.step at h
  cases hs : p.instances[k]? with
  | none =>
    rw [hs] at h
    cases h
  | some s =>
    simp only [hs] at h
    cases ht : Machine.step s with
    | next t =>
      rw [ht] at h
      cases h
      exact ⟨s, t, rfl, ht, rfl⟩
    | fault f =>
      rw [ht] at h
      cases h
    | refused r =>
      rw [ht] at h
      cases h

/-- Settles O58: a step of a platform writes one place of its list of instances. -/
theorem instancesShareNothing : Obligations.InstancesShareNothing := by
  intro p q k h
  obtain ⟨s, t, hs, ht, rfl⟩ := Platform.step_cases h
  obtain ⟨hk, -⟩ := List.getElem?_eq_some_iff.1 hs
  exact ⟨List.length_set, fun j hj => List.getElem?_set_ne hj.symm, s, t, hs, List.getElem?_set_self hk, ht⟩

end Sys2Proof.Machine
end

section
/-! Reset from any state, and the ways the port stops (spec/70_reset_and_hazards.md R430, R431, R440, R441). -/

namespace Sys2Proof.Machine

/-- With no action pending there is no step: the core never steps on its own (R440). -/
theorem step_of_no_action {s : State} (hp : s.pending = []) : step s = .refused .noCommand := by
  rw [step, hp]

/-- A step that takes a reset replaces the core by the reset core and leaves the rest of the port (R430, R431). -/
theorem step_of_reset {s : State} {rest : List HostAction} (hp : s.pending = .reset :: rest) :
    step s = .next { s with core := CoreState.reset, pending := rest } :=
  step_of_pending hp

/-- A command that overlaps the previous one has no step (R441). -/
theorem step_of_overlapped {s : State} {w : Word64} {rest : List HostAction} (hp : s.pending = .overlapped w :: rest) :
    step s = .refused .overlappingCommand :=
  step_of_pending hp

/-- A reset during a command has no step (R431). -/
theorem step_of_resetDuring {s : State} {w : Word64} {rest : List HostAction}
    (hp : s.pending = .resetDuring w :: rest) : step s = .refused .resetDuringCommand :=
  step_of_pending hp

/-- Settles O8: the step installs the reset core, whose registers hold the values of R54. -/
theorem resetSetsEveryRegister : Obligations.ResetSetsEveryRegister := by
  intro s rest hp
  obtain ⟨hphase, halg, hh, hbuf, htotal, hdg, hdlen, herr⟩ := resetStateHoldsTheResetValues
  exact ⟨_, step_of_reset hp, hphase, halg, hh, hbuf, htotal, hdg, hdlen, herr, rfl, rfl, rfl, rfl⟩

/-- Settles O9: one refusal for an empty port, and one for each action the host may not rely on. -/
theorem portStopsWithoutAnAdmittedCommand : Obligations.PortStopsWithoutAnAdmittedCommand := fun _ _ _ =>
  ⟨step_of_no_action, step_of_overlapped, step_of_resetDuring⟩

end Sys2Proof.Machine
end

section
/-! The worked words of the spec (spec/95_test_vectors.md V-N1), each decoded because it is the word of its command. -/

namespace Sys2Proof

/-- Settles O5: each word is the encoding of the well-formed command it stands for. -/
theorem specWordsDecodeAsWritten : Obligations.SpecWordsDecodeAsWritten := by
  refine ⟨?_, ?_, ?_, ?_, ?_, ?_⟩
  all_goals exact (decode_eq_some_iff_eq_encode rfl).2 rfl

end Sys2Proof
end

section
/-! The phase without a meaning, PHASE = 3 (spec/93_implementation_defined.md ID8). -/

namespace Sys2Proof.Machine

/-- In PHASE = 3 a command word stops, whether it decodes or not (ID8; log 6). -/
theorem runCommand_three {s : State} (h : s.core.phase = 3) (w : Word64) :
    runCommand w s = .fault .phaseUndefined := by
  unfold runCommand
  cases decode w with
  | some i => exact exec_three h i
  | none => exact inAnyPhase_three h _

/-- Settles O23: every command checks the phase, and so does the illegal word; a step with a command word pending
runs one of the two, on the same core. -/
theorem undefinedPhaseIsStuck : Obligations.UndefinedPhaseIsStuck := by
  intro s w rest h3
  refine ⟨exec_three h3, fun hp => ?_⟩
  rw [step_of_pending hp]
  exact runCommand_three (s := { s with pending := rest }) h3 w

end Sys2Proof.Machine
end
